-- ==== Sys2Proof/Word.lean ====
section
/-!
DEFINITION. The byte of the code store and the heap, and the cell of an operand stack.
-/

namespace Sys2Proof

/-- A byte: an unsigned 8-bit value, bit 7 the most significant (00_scope.md R11). -/
abbrev Byte := BitVec 8

/-- A cell of an operand stack, written as the spec writes it: a signed integer in
`[-2^(W-1), 2^(W-1))` with `W = CELL_BITS` (00_scope.md R12). The range is kept by every operation
that produces a cell (`Safety.MachineInv`), not by the type, since `CELL_BITS` is a parameter of the
machine (log entry 10). -/
abbrev Cell := Int

end Sys2Proof
end

