-- ==== Sys2Proof/Syntax.lean ====
section
/-!
DEFINITION. The instructions, one constructor for each row of spec/opcode_table.json, in its order.
-/

namespace Sys2Proof

/-- An instruction with the fields of its encoding (30_encoding.md R91). Fields the machine ignores
(`arg` of HALT and READ) are kept, so that no bit of an encoding is lost (log entry 12). -/
inductive Instr where
  /-- HALT, bytes 0x00-0x0F, `arg` ignored (42_halt.md R140). -/
  | halt (arg : BitVec 4)
  /-- READ, bytes 0x10 and 0x12-0x1F, `arg` any value but 1, ignored (43_bit_io.md R153). -/
  | read (arg : BitVec 4)
  /-- WRITE, byte 0x11 (43_bit_io.md R152). -/
  | write
  /-- SUB, byte 0x20 (44_stack_alu.md R171). -/
  | sub
  /-- ADD, byte 0x21 (44_stack_alu.md R172). -/
  | add
  /-- MUL, byte 0x22 (44_stack_alu.md R173). -/
  | mul
  /-- DIV, byte 0x23 (44_stack_alu.md R174). -/
  | div
  /-- MOD, byte 0x24 (44_stack_alu.md R175). -/
  | mod
  /-- AND, byte 0x25 (44_stack_alu.md R176). -/
  | and
  /-- OR, byte 0x26 (44_stack_alu.md R177). -/
  | or
  /-- NOT, byte 0x27 (44_stack_alu.md R178). -/
  | not
  /-- POP, byte 0x28 (44_stack_alu.md R179). -/
  | pop
  /-- SWAP, byte 0x29 (44_stack_alu.md R180). -/
  | swap
  /-- DUP, byte 0x2A (44_stack_alu.md R181). -/
  | dup
  /-- The reserved STACK bytes 0x2B-0x2F, `arg` 11 to 15 (44_stack_alu.md R182). -/
  | reservedStack (arg : BitVec 4)
  /-- JMP.S, bytes 0x30-0x3E, target 0 to 14 (45_control.md R201). -/
  | jmpS (target : BitVec 4)
  /-- JMP.L, byte 0x3F and the target byte (45_control.md R201). -/
  | jmpL (target : Byte)
  /-- JZ.S, bytes 0x40-0x4E, target 0 to 14 (45_control.md R202). -/
  | jzS (target : BitVec 4)
  /-- JZ.L, byte 0x4F and the target byte (45_control.md R202). -/
  | jzL (target : Byte)
  /-- The reserved bytes 0x50-0x7F, `op` 5 to 7 (40_execution_cycle.md R117). -/
  | reservedOp (op arg : BitVec 4)
  /-- PUSH [A], bytes 0x80-0xFF and the low address byte; `addr` is the 15-bit `A`
  (41_memory_push.md R130, 30_encoding.md R85). -/
  | push (addr : BitVec 15)
  deriving DecidableEq, Repr

end Sys2Proof
end

