-- ==== Sys2Proof/WellFormed.lean ====
section
/-!
DEFINITION. Which field values an encoding of each instruction can hold.
-/

namespace Sys2Proof

/-- The field values that the opcode map gives the instruction (30_encoding.md R86, R87, R91 to R93).
Every other field is bounded by its width alone. -/
def Instr.wellFormed : Instr → Bool
  | .halt _ => true
  | .read arg => arg != 1
  | .write => true
  | .sub => true
  | .add => true
  | .mul => true
  | .div => true
  | .mod => true
  | .and => true
  | .or => true
  | .not => true
  | .pop => true
  | .swap => true
  | .dup => true
  | .reservedStack arg => decide (11 ≤ arg.toNat)
  | .jmpS target => target != 15
  | .jmpL _ => true
  | .jzS target => target != 15
  | .jzL _ => true
  | .reservedOp op _ => decide (5 ≤ op.toNat) && decide (op.toNat ≤ 7)
  | .push _ => true

end Sys2Proof
end

