-- ==== Sys2Proof/Decode.lean ====
section
/-!
DEFINITION. From bytes to an instruction and back (30_encoding.md).
-/

namespace Sys2Proof

/-- Bytes an instruction takes, from its opcode byte alone (30_encoding.md R84). -/
def lengthOfOpcode (b0 : Byte) : Nat :=
  if b0.getLsbD 7 then 2
  else if (b0.extractLsb' 4 4 = 3 ∨ b0.extractLsb' 4 4 = 4) ∧ b0.extractLsb' 0 4 = 15 then 2
  else 1

/-- The STACK operation that `arg` selects (30_encoding.md R88, R93). -/
def decodeStack (arg : BitVec 4) : Instr :=
  match arg.toNat with
  | 0 => .sub
  | 1 => .add
  | 2 => .mul
  | 3 => .div
  | 4 => .mod
  | 5 => .and
  | 6 => .or
  | 7 => .not
  | 8 => .pop
  | 9 => .swap
  | 10 => .dup
  | _ => .reservedStack arg

/-- The instruction of an opcode byte and the byte after it, bit 7 tested first
(40_execution_cycle.md R113). A one-byte instruction does not look at `b1`. Total, since every byte
value selects a row (30_encoding.md R94). -/
def decodePair (b0 b1 : Byte) : Instr :=
  if b0.getLsbD 7 then .push (b0.extractLsb' 0 7 ++ b1)
  else
    let op := b0.extractLsb' 4 4
    let arg := b0.extractLsb' 0 4
    match op.toNat with
    | 0 => .halt arg
    | 1 => if arg = 1 then .write else .read arg
    | 2 => decodeStack arg
    | 3 => if arg = 15 then .jmpL b1 else .jmpS arg
    | 4 => if arg = 15 then .jzL b1 else .jzS arg
    | _ => .reservedOp op arg

/-- Why a list of bytes holds no instruction. -/
inductive DecodeError where
  /-- There is no byte at all. -/
  | noOpcodeByte
  /-- The opcode byte asks for an escape byte and the list ends (30_encoding.md R94). -/
  | noEscapeByte
  deriving DecidableEq, Repr

/-- What decoding a list of bytes answers. -/
inductive DecodeResult where
  | ok (i : Instr) (rest : List Byte)
  | refused (e : DecodeError)
  deriving DecidableEq, Repr

/-- The first instruction of a list of bytes, with the bytes after it. -/
def decode : List Byte → DecodeResult
  | [] => .refused .noOpcodeByte
  | b0 :: rest =>
    if lengthOfOpcode b0 = 2 then
      match rest with
      | [] => .refused .noEscapeByte
      | b1 :: rest' => .ok (decodePair b0 b1) rest'
    else .ok (decodePair b0 0) rest

/-- The bytes of an instruction (30_encoding.md R82, R83, R85 to R89, R91). -/
def encode : Instr → List Byte
  | .halt arg => [0x0#4 ++ arg]
  | .read arg => [0x1#4 ++ arg]
  | .write => [0x11]
  | .sub => [0x20]
  | .add => [0x21]
  | .mul => [0x22]
  | .div => [0x23]
  | .mod => [0x24]
  | .and => [0x25]
  | .or => [0x26]
  | .not => [0x27]
  | .pop => [0x28]
  | .swap => [0x29]
  | .dup => [0x2A]
  | .reservedStack arg => [0x2#4 ++ arg]
  | .jmpS target => [0x3#4 ++ target]
  | .jmpL target => [0x3F, target]
  | .jzS target => [0x4#4 ++ target]
  | .jzL target => [0x4F, target]
  | .reservedOp op arg => [op ++ arg]
  | .push addr => [1#1 ++ addr.extractLsb' 8 7, addr.extractLsb' 0 8]

/-- The two bytes an instruction occupies when its bits are `w`, numbered as spec/opcode_table.json
numbers them: byte 0 is bits 7 to 0, byte 1 bits 15 to 8, every bit from `nbits` on 0. -/
def bytesOfTableWord (nbits w : Nat) : List Byte :=
  let v := w % 2 ^ nbits
  [BitVec.ofNat 8 v, BitVec.ofNat 8 (v / 256)]

/-- The instruction the decoder reads from the bits `w` of a table row. -/
def decodeTableWord (nbits w : Nat) : Option Instr :=
  match decode (bytesOfTableWord nbits w) with
  | .ok i _ => some i
  | .refused _ => none

end Sys2Proof
end

