-- ==== Sys2Proof/Config.lean ====
section
/-!
DEFINITION. What a build of the block fixes (00_scope.md section 3): the capacities, the parameters
with their defaults, the two open tags, and the free values a failed load leaves.
-/

namespace Sys2Proof.Config

/-- `CODE_CAP`: bytes of code store (00_scope.md R7). -/
def codeCap : Nat := 1024

/-- `HEAP_CAP`: bytes of heap (00_scope.md R7). -/
def heapCap : Nat := 4096

/-- `MAX_ROBOTS` (00_scope.md R7). -/
def maxRobots : Nat := 16

/-- `HDR_LEN`: the entry points start at this image offset (00_scope.md R8). -/
def hdrLen : Nat := 11

/-- `MIN_IMAGE_LEN` (00_scope.md R8). -/
def minImageLen : Nat := 12

/-- `BIT_READ_MODE`: how the bit-plotter's READ turns a heap byte into one bit (43_bit_io.md R154). -/
inductive BitReadMode where
  | lsb
  | nonzero
  | raw
  deriving DecidableEq, Repr

/-- `UNKNOWN_OP_POLICY`: what opcode bytes 0x50-0x7F do (40_execution_cycle.md R117). -/
inductive UnknownOpPolicy where
  | fault
  | skip
  deriving DecidableEq, Repr

/-- The parameters of a build (00_scope.md R8, R9). They are a field of `State`, written by no step
and by no load, so that every statement over all states is a statement over all parameter values
(log entry 1). -/
structure Params where
  /-- `CELL_BITS`, any width above 8 (92_eei_decisions.md D1). -/
  cellBits : Nat
  /-- `STACK_CAP`, the cells of each operand stack (92_eei_decisions.md D4). -/
  stackCap : Nat
  bitReadMode : BitReadMode
  unknownOpPolicy : UnknownOpPolicy
  /-- `MAGIC`, image bytes 0 to 3 (92_eei_decisions.md D23). -/
  magic : Vector Byte 4
  /-- `VERSION`, image bytes 4 and 5 (92_eei_decisions.md D23). -/
  version : Vector Byte 2
  deriving DecidableEq, Repr

/-- `CELL_BITS` is above 8, as D1 asks of every build. -/
abbrev Params.valid (p : Params) : Prop := 8 < p.cellBits

/-- The constraint `STACK_CAP ≥ mem_size` on a build, for an image of that `mem_size`
(00_scope.md R9, 10_state.md R35, 92_eei_decisions.md D4). It binds the build for every image it
loads; it is no load check (70_reset_and_hazards.md R271, log entry 9). -/
abbrev Params.admits (p : Params) (memSize : Nat) : Prop := memSize ≤ p.stackCap

/-- The open value of `MAGIC`: nothing is known of it (00_scope.md R8, log entry 1). -/
opaque magic : Vector Byte 4

/-- The open value of `VERSION`: nothing is known of it (00_scope.md R8, log entry 1). -/
opaque version : Vector Byte 2

/-- The parameters at the spec's defaults, with the two open tags (00_scope.md R8, R9). -/
def defaultParams : Params where
  cellBits := 32
  stackCap := 4096
  bitReadMode := .lsb
  unknownOpPolicy := .fault
  magic := magic
  version := version

/-- What a failed load may leave in the stores and the configuration registers
(70_reset_and_hazards.md R280: unspecified). -/
structure LoadResidue where
  code : List (Nat × Byte)
  len : Nat
  memSize : Nat
  memStride : Byte
  dataSegOffset : Byte
  robotCount : Nat
  entry : List Byte
  codeSize : Int
  heap : List (Nat × Byte)
  deriving DecidableEq, Repr, Inhabited

/-- FREE VALUE: what the `n`-th load leaves when it fails. It has no body, so no proof can know it
(70_reset_and_hazards.md R280, 93_implementation_defined.md I17, log entry 8). -/
opaque failedLoad : Nat → LoadResidue

end Sys2Proof.Config
end

