-- ==== Sys2Proof/Machine/State.lean ====
section
/-!
DEFINITION. Everything the spec gives the block as state (10_state.md R20), as plain data.
-/

namespace Sys2Proof.Machine

/-- A byte store: (address, byte) pairs, addresses strictly rising, no pair whose byte is 0; an
address that is not listed reads as 0. Used for the code store, whose bytes past the image are 0
(70_reset_and_hazards.md R273), and for the heap, cleared to 0 by a load (R274). -/
abbrev Memory := List Host.Cell

/-- The cells of an operand stack as (index, cell) pairs, in the same canonical form; a cell that is
not listed is 0 (DESIGN CHOICE: the spec leaves it unspecified and never read, log entry 6). -/
abbrev Cells := List (Nat × Cell)

/-- The fault kinds (60_exceptions.md R221). -/
inductive FaultKind where
  /-- Never raised by the block (60_exceptions.md R222). -/
  | invalidArgument
  | badInput
  | notSupported
  /-- Never raised in a run (60_exceptions.md R223). -/
  | notRunning
  | runtimeStackUnderflow
  | runtimeDivisionByZero
  | outOfBounds
  deriving DecidableEq, Repr

/-- The state of the run (10_state.md R38, 60_exceptions.md R241). -/
inductive Sched where
  | idle
  | running
  | done
  | faulted
  | loadError
  deriving DecidableEq, Repr

/-- A fault record (60_exceptions.md R227). A load error has no robot, pc or sp. -/
structure FaultRecord where
  kind : FaultKind
  robot : Option Nat
  pc : Option Nat
  sp : Option Nat
  deriving DecidableEq, Repr

/-- A halt notice (60_exceptions.md R251). -/
structure HaltNotice where
  robot : Nat
  lastValue : Option Cell
  ticksAtReport : Nat
  deriving DecidableEq, Repr

/-- The registers of a robot (10_state.md R32 to R37). -/
structure Robot where
  /-- True while the robot takes ticks (10_state.md R32). -/
  running : Bool
  /-- Code address of the next opcode byte, a natural number with no wrap-around (10_state.md R33). -/
  pc : Nat
  /-- Number of cells on the stack (10_state.md R34). -/
  sp : Nat
  /-- The cells `S` of the operand stack (10_state.md R35). -/
  stack : Cells
  /-- The row stride, a copy of `mem_stride` (10_state.md R37). -/
  stride : Byte
  deriving DecidableEq, Repr

/-- The whole state of the block (10_state.md R20), with two fields of the model's own at the end. -/
structure State where
  /-- `code`, the code store that holds the whole image (10_state.md R21). -/
  code : Memory
  /-- `L`, the image length, which bounds every fetch (10_state.md R22). -/
  len : Nat
  /-- `mem_size`, the addressable heap bytes (10_state.md R23). -/
  memSize : Nat
  /-- `mem_stride` (10_state.md R24). -/
  memStride : Byte
  /-- `data_seg_offset` (10_state.md R25). -/
  dataSegOffset : Byte
  /-- `robot_count` (10_state.md R26). -/
  robotCount : Nat
  /-- `entry`, the entry points (10_state.md R27). -/
  entry : List Byte
  /-- `code_size`, informational only (10_state.md R28). -/
  codeSize : Int
  /-- `heap`, the shared data memory (10_state.md R30). -/
  heap : Memory
  /-- `robot`, the robot table (10_state.md R31). -/
  robots : List Robot
  /-- `sched`, the state of the run (10_state.md R38). -/
  sched : Sched
  /-- `next`, the robot considered next in this pass (10_state.md R39). -/
  next : Nat
  /-- `halted_in_pass`, a set of robot indices kept strictly rising (10_state.md R39, log entry 17). -/
  haltedInPass : List Nat
  /-- `ticks`, the count of completed instructions (10_state.md R40). -/
  ticks : Nat
  /-- `fault`, the fault record (10_state.md R41). -/
  fault : Option FaultRecord
  /-- `notices`, the halt notices in report order (10_state.md R42). -/
  notices : List HaltNotice
  /-- The MODEL's own field: the parameters of the build, which nothing changes (log entry 1). -/
  params : Config.Params
  /-- The MODEL's own field: how many loads the host has made, the index of the free values that a
  failed load leaves (log entry 8). -/
  loads : Nat
  deriving DecidableEq, Repr

/-- How the model itself can stop. The faults of the hardware are no constructor here: they are taken,
and lead to a next state (60_exceptions.md R227, R228, log entry 5). -/
inductive Fault where
  /-- Raised by `tick` alone, applied to a robot that is not running: NotRunning, with nothing changed
  (40_execution_cycle.md R111, 60_exceptions.md R223). `step` never answers it. Safe. -/
  | notRunning
  /-- The MODEL's own: there is no robot to run. Raised by `exec`, and so by every meaning, in a state
  where no robot is due, and by `tick` of an index outside the robot table. The spec has neither
  case, and `step` never answers it (log entry 5). Safe. -/
  | noRobot
  deriving DecidableEq, Repr

/-- What the model refuses. -/
inductive Refusal where
  /-- An instruction without a meaning. No arm of `exec` answers it. Safe. -/
  | notModelled (mnemonic : String)
  deriving DecidableEq, Repr

/-- Power-up, before any load: `sched = IDLE` and the rest unspecified (70_reset_and_hazards.md R270).
The unspecified elements hold the values log entry 2 names (DESIGN CHOICE), the parameters the
spec's defaults (log entry 1). The block then waits for the host's load, `State.load`. -/
def State.reset : State where
  code := []
  len := 0
  memSize := 0
  memStride := 0
  dataSegOffset := 0
  robotCount := 0
  entry := []
  codeSize := 0
  heap := []
  robots := []
  sched := .idle
  next := 0
  haltedInPass := []
  ticks := 0
  fault := none
  notices := []
  params := Config.defaultParams
  loads := 0

end Sys2Proof.Machine
end

