-- ==== Sys2Proof/Machine/Store.lean ====
section
/-!
DEFINITION. A sparse store in canonical form: the code store, the heap and the operand stacks.
-/

namespace Sys2Proof.Machine

/-- What a store holds at an address; `d` is what an address that is not listed reads as. -/
def Store.read {α : Type} (d : α) : List (Nat × α) → Nat → α
  | [], _ => d
  | (k, v) :: rest, a => if k = a then v else Store.read d rest a

/-- A pair put before the first higher address. -/
def Store.insert {α : Type} (a : Nat) (v : α) : List (Nat × α) → List (Nat × α)
  | [] => [(a, v)]
  | (k, u) :: rest => if a < k then (a, v) :: (k, u) :: rest else (k, u) :: Store.insert a v rest

/-- The store without an address. -/
def Store.erase {α : Type} (m : List (Nat × α)) (a : Nat) : List (Nat × α) :=
  m.filter (fun c => c.1 != a)

/-- One address written. Writing what an unlisted address reads as removes the entry, so that equal
stores are equal data. -/
def Store.write {α : Type} [DecidableEq α] (d : α) (m : List (Nat × α)) (a : Nat) (v : α) :
    List (Nat × α) :=
  if v = d then Store.erase m a else Store.insert a v (Store.erase m a)

/-- The canonical form: addresses strictly rising, no entry equal to what an unlisted address reads
as. -/
def Store.wf {α : Type} [DecidableEq α] (d : α) : List (Nat × α) → Bool
  | [] => true
  | (k, v) :: rest => decide (v ≠ d) && rest.all (fun c => decide (k < c.1)) && Store.wf d rest

/-- A list of pairs written one after the other, a later pair over an earlier one. -/
def Store.writeAll {α : Type} [DecidableEq α] (d : α) (m : List (Nat × α)) (l : List (Nat × α)) :
    List (Nat × α) :=
  l.foldl (fun m c => Store.write d m c.1 c.2) m

/-- The byte a memory holds at an address. -/
def Memory.read (m : Memory) (a : Nat) : Byte := Store.read 0 m a

/-- A memory with one byte written. -/
def Memory.write (m : Memory) (a : Nat) (v : Byte) : Memory := Store.write 0 m a v

/-- A memory in canonical form. -/
def Memory.wf (m : Memory) : Bool := Store.wf (0 : Byte) m

/-- A memory that holds the given bytes from address 0 on. -/
def Memory.ofBytes (bs : List Byte) : Memory :=
  Store.writeAll 0 [] (bs.zipIdx.map fun p => (p.2, p.1))

end Sys2Proof.Machine
end

