-- ==== Sys2Proof/Machine/Operands.lean ====
section
/-!
DEFINITION. Cell arithmetic, and the operands an instruction takes from a stack or its encoding
(00_scope.md R12, 43_bit_io.md, 44_stack_alu.md R183). The block has no flags (10_state.md R36).
-/

namespace Sys2Proof.Machine

/-- `wrap_W(n)`: the integer of `[-2^(W-1), 2^(W-1))` congruent to `n` modulo `2^W`
(00_scope.md R12). -/
def wrap (w : Nat) (n : Int) : Cell := Int.bmod n (2 ^ w)

/-- `zext_W` of an unsigned number; a byte is below `2^(W-1)` whenever `W > 8` (00_scope.md R12). -/
def zext (b : Nat) : Cell := b

/-- `tdiv(n, d)`: the quotient rounded toward zero (00_scope.md R12). -/
def tdiv (n d : Int) : Int := Int.tdiv n d

/-- `trem(n, d) = n - d * tdiv(n, d)` (00_scope.md R12). -/
def trem (n d : Int) : Int := n - d * tdiv n d

/-- SUB's result (44_stack_alu.md R171). -/
def subCells (w : Nat) (b a : Cell) : Cell := wrap w (b - a)

/-- ADD's result (44_stack_alu.md R172). -/
def addCells (w : Nat) (b a : Cell) : Cell := wrap w (b + a)

/-- MUL's result (44_stack_alu.md R173). -/
def mulCells (w : Nat) (b a : Cell) : Cell := wrap w (b * a)

/-- DIV's result for a nonzero divisor (44_stack_alu.md R174). -/
def divCells (w : Nat) (b a : Cell) : Cell := wrap w (tdiv b a)

/-- MOD's result for a nonzero divisor (44_stack_alu.md R175). -/
def modCells (b a : Cell) : Cell := trem b a

/-- AND's result, bitwise on the `W`-bit representation (44_stack_alu.md R176). -/
def andCells (w : Nat) (b a : Cell) : Cell := (BitVec.ofInt w b &&& BitVec.ofInt w a).toInt

/-- OR's result, bitwise on the `W`-bit representation (44_stack_alu.md R177). -/
def orCells (w : Nat) (b a : Cell) : Cell := (BitVec.ofInt w b ||| BitVec.ofInt w a).toInt

/-- NOT's result, bitwise on the `W`-bit representation (44_stack_alu.md R178). -/
def notCell (w : Nat) (a : Cell) : Cell := (~~~ BitVec.ofInt w a).toInt

/-- Cell `k` of a robot's stack, `S[k]` (00_scope.md R13). -/
def Robot.cell (r : Robot) (k : Nat) : Cell := Store.read 0 r.stack k

/-- `S[k] <- v` (00_scope.md R13, R15). -/
def Robot.setCell (r : Robot) (k : Nat) (v : Cell) : Robot :=
  { r with stack := Store.write 0 r.stack k v }

/-- The robot with its `sp` and `pc` updated (00_scope.md R15). -/
def Robot.moved (r : Robot) (sp pc : Nat) : Robot := { r with sp := sp, pc := pc }

/-- The four operands READ and WRITE share, `dy` on top (43_bit_io.md R151). -/
structure PlotVector where
  x : Cell
  y : Cell
  dx : Cell
  dy : Cell
  deriving DecidableEq, Repr

/-- `x`, `y`, `dx`, `dy` from the top four cells (43_bit_io.md R151). -/
def Robot.plotVector (r : Robot) : PlotVector where
  x := r.cell (r.sp - 4)
  y := r.cell (r.sp - 3)
  dx := r.cell (r.sp - 2)
  dy := r.cell (r.sp - 1)

/-- The heap offset of visit `i`, on integers with no wrap-around (20_memory.md R64). -/
def plotOffset (p : PlotVector) (stride : Byte) (i : Nat) : Int :=
  (p.x + i * p.dx) + (p.y + i * p.dy) * stride.toNat

/-- The visits of READ and WRITE, in order (20_memory.md R64). -/
def visits : List Nat := [0, 1, 2, 3, 4, 5, 6, 7]

/-- The byte WRITE stores at visit `i`: bit `7 - i` of the `W`-bit representation of `v`
(43_bit_io.md R152, R155). -/
def drawnByte (w : Nat) (v : Cell) (i : Nat) : Byte :=
  if (BitVec.ofInt w v).getLsbD (7 - i) then 1 else 0

/-- `Bit(c)` for the two modes that take one bit of each byte (43_bit_io.md R154). -/
def bitOfByte (mode : Config.BitReadMode) (c : Byte) : Nat :=
  match mode with
  | .lsb => (c &&& 1).toNat
  | .nonzero => if c = 0 then 0 else 1
  | .raw => c.toNat

/-- `r <- (r << 1) | Bit(c)` over the bytes in the order visited (43_bit_io.md R153). -/
def gatherBits (mode : Config.BitReadMode) (bytes : List Byte) : Nat :=
  bytes.foldl (fun r c => (r <<< 1) ||| bitOfByte mode c) 0

/-- The sum of the bytes at their bit weights, the first byte's the highest (43_bit_io.md R154, mode
`raw`). -/
def gatherRaw (bytes : List Byte) : Nat :=
  bytes.foldl (fun r c => 2 * r + c.toNat) 0

/-- The cell READ pushes for the bytes it read (43_bit_io.md R153, R154). -/
def gathered (p : Config.Params) (bytes : List Byte) : Cell :=
  match p.bitReadMode with
  | .lsb => zext (gatherBits .lsb bytes)
  | .nonzero => zext (gatherBits .nonzero bytes)
  | .raw => wrap p.cellBits (gatherRaw bytes)

end Sys2Proof.Machine
end

