-- ==== Sys2Proof/Machine/Ops.lean ====
section
/-!
DEFINITION. The named operations on the machine: code and heap access, one tick's bookkeeping, TAKING
A FAULT, the end of a pass. There is no return from a fault to model: the only way out of FAULTED
is a new load (60_exceptions.md R231).
-/

namespace Sys2Proof.Machine

/-- The numeric code of a fault kind (60_exceptions.md R221). -/
def FaultKind.code : FaultKind → Nat
  | .invalidArgument => 1
  | .badInput => 2
  | .notSupported => 3
  | .notRunning => 4
  | .runtimeStackUnderflow => 5
  | .runtimeDivisionByZero => 6
  | .outOfBounds => 7

/-- The numeric code the host reads: 0 for no fault (60_exceptions.md R221). -/
def State.faultCode (s : State) : Nat :=
  match s.fault with
  | none => 0
  | some f => f.kind.code

/-- `CodeRead(a)`: one byte, or none where it raises `OutOfBounds` (00_scope.md R14). -/
def State.codeRead (s : State) (a : Nat) : Option Byte :=
  if a < s.len then some (s.code.read a) else none

/-- Whether a heap offset lies in `[0, mem_size)` (20_memory.md R63). -/
def State.inHeap (s : State) (a : Int) : Bool := decide (0 ≤ a) && decide (a < s.memSize)

/-- `MemRead(a, 1)`: one byte, or none where it raises `OutOfBounds` (00_scope.md R14). -/
def State.heapRead (s : State) (a : Int) : Option Byte :=
  if s.inHeap a then some (s.heap.read a.toNat) else none

/-- The robot the next scheduler step ticks, with its index: the least running one from `next` on
(60_exceptions.md R242). -/
def State.current (s : State) : Option (Nat × Robot) :=
  ((s.robots.zipIdx.drop s.next).find? (fun p => p.1.running)).map fun p => (p.2, p.1)

/-- What one tick does: it completes, or it raises a fault kind (40_execution_cycle.md R110). Either
way it can touch nothing but the robot's registers and the heap; a raise leaves the registers and
keeps the heap writes made before it (R116). -/
inductive TickResult where
  | completed (r : Robot) (heap : Memory)
  | raised (k : FaultKind) (heap : Memory)
  deriving DecidableEq, Repr

/-- A set of indices with one more in it, strictly rising (10_state.md R39). -/
def setInsert (j : Nat) : List Nat → List Nat
  | [] => [j]
  | k :: rest => if j < k then j :: k :: rest else if j = k then k :: rest else k :: setInsert j rest

/-- The scheduler's work after a completed tick of robot `j` (60_exceptions.md R242). -/
def State.completeTick (s : State) (j : Nat) (r : Robot) (heap : Memory) : State :=
  { s with
    heap := heap
    robots := s.robots.set j r
    ticks := s.ticks + 1
    haltedInPass := if r.running then s.haltedInPass else setInsert j s.haltedInPass
    next := j + 1 }

/-- TAKING A FAULT of robot `j`, whose registers before the tick are `r`: the record, and the end of
the run (60_exceptions.md R227, R228, R242). The robot's registers keep their values (R229). -/
def State.takeFault (s : State) (j : Nat) (r : Robot) (k : FaultKind) (heap : Memory) : State :=
  { s with
    heap := heap
    fault := some { kind := k, robot := some j, pc := some r.pc, sp := some r.sp }
    sched := .faulted }

/-- One instruction run by the robot the scheduler designates, with the scheduler's work after it
(60_exceptions.md R242). Where it designates none, at the end of a pass, there is no robot to run
(log entry 5). -/
def State.runTick (s : State) (body : Robot → TickResult) : Host.Outcome State Fault Refusal :=
  match s.current with
  | none => .fault .noRobot
  | some (j, r) =>
    match body r with
    | .completed r' heap => .next (s.completeTick j r' heap)
    | .raised k heap => .next (s.takeFault j r k heap)

/-- The notice of a robot that halted in the pass that ends (60_exceptions.md R251). -/
def State.haltNotice (s : State) (j : Nat) : HaltNotice where
  robot := j
  lastValue :=
    match s.robots[j]? with
    | some r => if 0 < r.sp then some (r.cell (r.sp - 1)) else none
    | none => none
  ticksAtReport := s.ticks

/-- The end of a pass (60_exceptions.md R242). -/
def State.endPass (s : State) : State :=
  if s.robots.any (fun r => r.running) then
    { s with notices := s.notices ++ s.haltedInPass.map s.haltNotice, haltedInPass := [], next := 0 }
  else
    { s with
      notices := s.notices ++ s.haltedInPass.map s.haltNotice, haltedInPass := [], sched := .done }

/-- A binary STACK operation (44_stack_alu.md R170): `a` the top cell, `b` the one below it. -/
def binaryTick (f : Cell → Cell → Cell) (s : State) (r : Robot) : TickResult :=
  if r.sp < 2 then .raised .runtimeStackUnderflow s.heap
  else
    .completed
      ((r.setCell (r.sp - 2) (f (r.cell (r.sp - 2)) (r.cell (r.sp - 1)))).moved
        (r.sp - 1) (r.pc + 1))
      s.heap

/-- DIV and MOD: a zero on top faults even where the other cell is missing (44_stack_alu.md R174,
R175). -/
def divideTick (f : Cell → Cell → Cell) (s : State) (r : Robot) : TickResult :=
  if r.sp = 0 then .raised .runtimeStackUnderflow s.heap
  else if r.cell (r.sp - 1) = 0 then .raised .runtimeDivisionByZero s.heap
  else binaryTick f s r

/-- `Room(1)` then `Push(v)` then `pc <- pc + n` (00_scope.md R13). -/
def pushTick (v : Cell) (n : Nat) (s : State) (r : Robot) : TickResult :=
  if s.params.stackCap < r.sp + 1 then .raised .outOfBounds s.heap
  else .completed ((r.setCell r.sp v).moved (r.sp + 1) (r.pc + n)) s.heap

/-- WRITE's visits: each is checked just before its store. The heap after them, and whether every
visit was in range (43_bit_io.md R152). -/
def drawVisits (s : State) (off : Nat → Int) (bit : Nat → Byte) : List Nat → Memory → Memory × Bool
  | [], heap => (heap, true)
  | i :: rest, heap =>
    if s.inHeap (off i) then drawVisits s off bit rest (heap.write (off i).toNat (bit i))
    else (heap, false)

/-- READ's visits: the bytes in the order visited, or none where a visit is out of range
(43_bit_io.md R153). -/
def gatherVisits (s : State) (off : Nat → Int) : List Nat → Option (List Byte)
  | [] => some []
  | i :: rest =>
    match s.heapRead (off i) with
    | none => none
    | some c => (gatherVisits s off rest).map (c :: ·)

/-- JZ after its operand check: the cell is popped, and the jump taken exactly when it is 0
(45_control.md R202). -/
def jumpIfZeroTick (target len : Nat) (s : State) (r : Robot) : TickResult :=
  .completed
    (r.moved (r.sp - 1) (if r.cell (r.sp - 1) = 0 then target else r.pc + len))
    s.heap

/-- The address `withFetchWord` gives a robot it has to make: the first one after a header with one
entry point. -/
def fetchSlot : Nat := 12

/-- The two bytes stored at code address `a`, with the image long enough to fetch both. -/
def State.storeCode (s : State) (a : Nat) (bytes : List Byte) : State :=
  { s with
    code := (s.code.write a (bytes.getD 0 0)).write (a + 1) (bytes.getD 1 0)
    len := max s.len (a + 2) }

/-- A robot table of one running robot at `fetchSlot`, first in its pass: what a load with one entry
point makes (70_reset_and_hazards.md R277, R278). -/
def State.withOneRobot (s : State) : State :=
  { s with
    robotCount := 1
    entry := [BitVec.ofNat 8 fetchSlot]
    robots :=
      [{ running := true, pc := fetchSlot, sp := 0, stack := [], stride := s.memStride }]
    sched := .running
    next := 0 }

/-- The bytes stored where the next step fetches. Where no running robot with room for both bytes is
due, one is put there first (log entry 13). -/
def State.placeInstruction (s : State) (bytes : List Byte) : State :=
  match s.sched, s.current with
  | .running, some (_, r) =>
    if r.pc + 2 ≤ Config.codeCap then s.storeCode r.pc bytes
    else s.withOneRobot.storeCode fetchSlot bytes
  | _, _ => s.withOneRobot.storeCode fetchSlot bytes

end Sys2Proof.Machine
end

