-- ==== Sys2Proof/Machine/BitIo.lean ====
section
/-!
DEFINITION. The bit-plotter's READ and WRITE (43_bit_io.md).
-/

namespace Sys2Proof.Machine

/-- READ: `[…, x, y, dx, dy] → […, r]`; `arg` is ignored (43_bit_io.md R153, R154). -/
def execRead (_arg : BitVec 4) (s : State) : Host.Outcome State Fault Refusal :=
  s.runTick fun r =>
    if r.sp < 4 then .raised .runtimeStackUnderflow s.heap
    else
      match gatherVisits s (plotOffset r.plotVector r.stride) visits with
      | none => .raised .outOfBounds s.heap
      | some bytes =>
        .completed
          ((r.setCell (r.sp - 4) (gathered s.params bytes)).moved (r.sp - 3) (r.pc + 1))
          s.heap

/-- WRITE: `[…, v, x, y, dx, dy] → […]`; the stores before a visit out of range stay
(43_bit_io.md R152). -/
def execWrite (s : State) : Host.Outcome State Fault Refusal :=
  s.runTick fun r =>
    if r.sp < 5 then .raised .runtimeStackUnderflow s.heap
    else
      match drawVisits s (plotOffset r.plotVector r.stride)
          (drawnByte s.params.cellBits (r.cell (r.sp - 5))) visits s.heap with
      | (heap, true) => .completed (r.moved (r.sp - 5) (r.pc + 1)) heap
      | (heap, false) => .raised .outOfBounds heap

end Sys2Proof.Machine
end

