-- ==== Sys2Proof/Machine/Control.lean ====
section
/-!
DEFINITION. The jumps (45_control.md). A target is written to `pc` without a check (R203).
-/

namespace Sys2Proof.Machine

/-- JMP.S: to the target in the opcode byte (45_control.md R201). -/
def execJmpS (target : BitVec 4) (s : State) : Host.Outcome State Fault Refusal :=
  s.runTick fun r => .completed (r.moved r.sp target.toNat) s.heap

/-- JMP.L: to the target in the escape byte, which must lie in the image (45_control.md R201). -/
def execJmpL (target : Byte) (s : State) : Host.Outcome State Fault Refusal :=
  s.runTick fun r =>
    match s.codeRead (r.pc + 1) with
    | none => .raised .outOfBounds s.heap
    | some _ => .completed (r.moved r.sp target.toNat) s.heap

/-- JZ.S: pops, and jumps where the cell is 0 (45_control.md R202). -/
def execJzS (target : BitVec 4) (s : State) : Host.Outcome State Fault Refusal :=
  s.runTick fun r =>
    if r.sp < 1 then .raised .runtimeStackUnderflow s.heap
    else jumpIfZeroTick target.toNat 1 s r

/-- JZ.L: the operand is checked first, then the escape byte, taken or not (45_control.md R202). -/
def execJzL (target : Byte) (s : State) : Host.Outcome State Fault Refusal :=
  s.runTick fun r =>
    if r.sp < 1 then .raised .runtimeStackUnderflow s.heap
    else
      match s.codeRead (r.pc + 1) with
      | none => .raised .outOfBounds s.heap
      | some _ => jumpIfZeroTick target.toNat 2 s r

end Sys2Proof.Machine
end

