-- ==== Sys2Proof/Machine/Halt.lean ====
section
/-!
DEFINITION. HALT (42_halt.md).
-/

namespace Sys2Proof.Machine

/-- HALT: the robot stops, `pc` moves on, the stack is kept; `arg` is ignored (42_halt.md R140). -/
def execHalt (_arg : BitVec 4) (s : State) : Host.Outcome State Fault Refusal :=
  s.runTick fun r => .completed { r with running := false, pc := r.pc + 1 } s.heap

end Sys2Proof.Machine
end

