-- ==== Sys2Proof/Machine/Push.lean ====
section
/-!
DEFINITION. The memory push (41_memory_push.md).
-/

namespace Sys2Proof.Machine

/-- PUSH [A]: the escape byte must lie in the image, then the address in the heap, then a cell must be
free; the byte is pushed zero-extended (41_memory_push.md R130). -/
def execPush (addr : BitVec 15) (s : State) : Host.Outcome State Fault Refusal :=
  s.runTick fun r =>
    match s.codeRead (r.pc + 1) with
    | none => .raised .outOfBounds s.heap
    | some _ =>
      match s.heapRead addr.toNat with
      | none => .raised .outOfBounds s.heap
      | some v => pushTick (zext v.toNat) 2 s r

end Sys2Proof.Machine
end

