-- ==== Sys2Proof/Machine/Reserved.lean ====
section
/-!
DEFINITION. The reserved top-level opcodes (40_execution_cycle.md R117).
-/

namespace Sys2Proof.Machine

/-- Opcode bytes 0x50-0x7F: BadInput under the policy `fault`, a one-byte no-op under `skip`
(40_execution_cycle.md R117). -/
def execReservedOp (_op _arg : BitVec 4) (s : State) : Host.Outcome State Fault Refusal :=
  s.runTick fun r =>
    match s.params.unknownOpPolicy with
    | .fault => .raised .badInput s.heap
    | .skip => .completed (r.moved r.sp (r.pc + 1)) s.heap

end Sys2Proof.Machine
end

