-- ==== Sys2Proof/Machine/StackAlu.lean ====
section
/-!
DEFINITION. The STACK operations (44_stack_alu.md).
-/

namespace Sys2Proof.Machine

/-- SUB: `[…, b, a] → […, b - a]` (44_stack_alu.md R171). -/
def execSub (s : State) : Host.Outcome State Fault Refusal :=
  s.runTick (binaryTick (subCells s.params.cellBits) s)

/-- ADD: `[…, b, a] → […, b + a]` (44_stack_alu.md R172). -/
def execAdd (s : State) : Host.Outcome State Fault Refusal :=
  s.runTick (binaryTick (addCells s.params.cellBits) s)

/-- MUL: `[…, b, a] → […, b * a]` (44_stack_alu.md R173). -/
def execMul (s : State) : Host.Outcome State Fault Refusal :=
  s.runTick (binaryTick (mulCells s.params.cellBits) s)

/-- DIV: `[…, b, a] → […, b / a]`, rounded toward zero (44_stack_alu.md R174). -/
def execDiv (s : State) : Host.Outcome State Fault Refusal :=
  s.runTick (divideTick (divCells s.params.cellBits) s)

/-- MOD: `[…, b, a] → […, b % a]`, with the sign of `b` (44_stack_alu.md R175). -/
def execMod (s : State) : Host.Outcome State Fault Refusal :=
  s.runTick (divideTick modCells s)

/-- AND: `[…, b, a] → […, b & a]` (44_stack_alu.md R176). -/
def execAnd (s : State) : Host.Outcome State Fault Refusal :=
  s.runTick (binaryTick (andCells s.params.cellBits) s)

/-- OR: `[…, b, a] → […, b | a]` (44_stack_alu.md R177). -/
def execOr (s : State) : Host.Outcome State Fault Refusal :=
  s.runTick (binaryTick (orCells s.params.cellBits) s)

/-- NOT: the top cell complemented in place (44_stack_alu.md R178). -/
def execNot (s : State) : Host.Outcome State Fault Refusal :=
  s.runTick fun r =>
    if r.sp < 1 then .raised .runtimeStackUnderflow s.heap
    else
      .completed
        ((r.setCell (r.sp - 1) (notCell s.params.cellBits (r.cell (r.sp - 1)))).moved
          r.sp (r.pc + 1))
        s.heap

/-- POP: the top cell discarded; its content stays in `S[sp]` (44_stack_alu.md R179). -/
def execPop (s : State) : Host.Outcome State Fault Refusal :=
  s.runTick fun r =>
    if r.sp < 1 then .raised .runtimeStackUnderflow s.heap
    else .completed (r.moved (r.sp - 1) (r.pc + 1)) s.heap

/-- SWAP: the top two cells exchanged (44_stack_alu.md R180). -/
def execSwap (s : State) : Host.Outcome State Fault Refusal :=
  s.runTick fun r =>
    if r.sp < 2 then .raised .runtimeStackUnderflow s.heap
    else
      .completed
        (((r.setCell (r.sp - 1) (r.cell (r.sp - 2))).setCell (r.sp - 2) (r.cell (r.sp - 1))).moved
          r.sp (r.pc + 1))
        s.heap

/-- DUP: the top cell pushed again; underflow is checked before the full stack
(44_stack_alu.md R181). -/
def execDup (s : State) : Host.Outcome State Fault Refusal :=
  s.runTick fun r =>
    if r.sp < 1 then .raised .runtimeStackUnderflow s.heap
    else pushTick (r.cell (r.sp - 1)) 1 s r

/-- The reserved STACK bytes: always BadInput, whatever the policy for unknown opcodes
(44_stack_alu.md R182). -/
def execReservedStack (_arg : BitVec 4) (s : State) : Host.Outcome State Fault Refusal :=
  s.runTick fun _ => .raised .badInput s.heap

end Sys2Proof.Machine
end

