-- ==== Sys2Proof/Machine/Dispatch.lean ====
section
/-!
DEFINITION. One arm per instruction: the robot the scheduler designates runs it (40_execution_cycle.md
R113), with the scheduler's work after the tick (60_exceptions.md R242).
-/

namespace Sys2Proof.Machine

def exec (i : Instr) (s : State) : Host.Outcome State Fault Refusal :=
  match i with
  | .halt arg => Sys2Proof.Machine.execHalt arg s
  | .read arg => Sys2Proof.Machine.execRead arg s
  | .write => Sys2Proof.Machine.execWrite s
  | .sub => Sys2Proof.Machine.execSub s
  | .add => Sys2Proof.Machine.execAdd s
  | .mul => Sys2Proof.Machine.execMul s
  | .div => Sys2Proof.Machine.execDiv s
  | .mod => Sys2Proof.Machine.execMod s
  | .and => Sys2Proof.Machine.execAnd s
  | .or => Sys2Proof.Machine.execOr s
  | .not => Sys2Proof.Machine.execNot s
  | .pop => Sys2Proof.Machine.execPop s
  | .swap => Sys2Proof.Machine.execSwap s
  | .dup => Sys2Proof.Machine.execDup s
  | .reservedStack arg => Sys2Proof.Machine.execReservedStack arg s
  | .jmpS target => Sys2Proof.Machine.execJmpS target s
  | .jmpL target => Sys2Proof.Machine.execJmpL target s
  | .jzS target => Sys2Proof.Machine.execJzS target s
  | .jzL target => Sys2Proof.Machine.execJzL target s
  | .reservedOp op arg => Sys2Proof.Machine.execReservedOp op arg s
  | .push addr => Sys2Proof.Machine.execPush addr s

end Sys2Proof.Machine
end

