-- ==== Sys2Proof/Machine/Scheduler.lean ====
section
/-!
DEFINITION. One scheduler step: one tick, or the end of a pass (60_exceptions.md R242).
-/

namespace Sys2Proof.Machine

/-- One instruction run by robot `j`, wherever the schedule stands: the schedule is put at `j`, and a
tick that faults, which counts none, leaves it where it was (60_exceptions.md R242). -/
def execFor (j : Nat) (i : Instr) (s : State) : Host.Outcome State Fault Refusal :=
  match exec i { s with next := j } with
  | .next t => .next (if t.ticks = s.ticks then { t with next := s.next } else t)
  | .fault f => .fault f
  | .refused f => .refused f

/-- `Tick(j)`: the robot must be running, else NotRunning and nothing changes; the opcode byte must lie
in the image; the decoder gets it with the byte after it, and an instruction of two bytes checks
itself that its second lies in the image, in the order the spec gives its checks
(40_execution_cycle.md R111, R112, R113, 60_exceptions.md R225, log entry 11). -/
def tick (j : Nat) (s : State) : Host.Outcome State Fault Refusal :=
  match s.robots[j]? with
  | none => .fault .noRobot
  | some r =>
    if r.running then
      match s.codeRead r.pc with
      | none => .next (s.takeFault j r .outOfBounds s.heap)
      | some b0 => execFor j (decodePair b0 (s.code.read (r.pc + 1))) s
    else .fault .notRunning

/-- `SchedStep` (60_exceptions.md R242). -/
def schedStep (s : State) : Host.Outcome State Fault Refusal :=
  match s.current with
  | none => .next s.endPass
  | some (j, _) => tick j s

/-- The host's Step: one `SchedStep` while the run goes on, else nothing (60_exceptions.md R260). -/
def hostStep (s : State) : Host.Outcome State Fault Refusal :=
  match s.sched with
  | .running => schedStep s
  | .idle => .next s
  | .done => .next s
  | .faulted => .next s
  | .loadError => .next s

end Sys2Proof.Machine
end

