-- ==== Sys2Proof/Machine/Step.lean ====
section
/-!
DEFINITION. The step of the machine, and where it fetches its next instruction.
-/

namespace Sys2Proof.Machine

/-- One step of the block: the host's Step (60_exceptions.md R260). -/
def step (s : State) : Host.Outcome State Fault Refusal := hostStep s

/-- The state with the instruction of the bits `w` stored where `step` fetches its next instruction.
In a state without a running robot (power-up, before any load) it stands for the host's load of a
one-robot image (log entries 3 and 13). -/
def State.withFetchWord (s : State) (nbits w : Nat) : State :=
  s.placeInstruction (bytesOfTableWord nbits w)

end Sys2Proof.Machine
end

