-- ==== Sys2Proof/Machine/Load.lean ====
section
/-!
DEFINITION. Reset with an image: the load checks and what a load leaves (70_reset_and_hazards.md).
-/

namespace Sys2Proof.Machine

/-- Image byte `a`; the checks before it is read bound `a` below the image length. -/
def imageByte (image : List Byte) (a : Nat) : Byte := image.getD a 0

/-- `mem_size` from the header, big-endian (10_state.md R23). -/
def imageMemSize (image : List Byte) : Nat :=
  (imageByte image 6).toNat * 256 + (imageByte image 7).toNat

/-- `robot_count` from the header (10_state.md R26). -/
def imageRobotCount (image : List Byte) : Nat := (imageByte image 10).toNat

/-- The initializer records of the bytes from `data_seg_offset` on, three bytes each, the address
big-endian; none where a record is cut short or lies outside the heap
(70_reset_and_hazards.md R275). -/
def parseRecords (memSize : Nat) : List Byte → Option Memory
  | [] => some []
  | hi :: lo :: v :: rest =>
    if hi.toNat * 256 + lo.toNat < memSize then
      (parseRecords memSize rest).map ((hi.toNat * 256 + lo.toNat, v) :: ·)
    else none
  | _ => none

/-- The records of an image (70_reset_and_hazards.md R275). -/
def imageRecords (image : List Byte) : Option Memory :=
  parseRecords (imageMemSize image) (image.drop (imageByte image 9).toNat)

/-- The load checks in their order: the kind of the first that fails (70_reset_and_hazards.md R271). -/
def loadCheck (p : Config.Params) (image : List Byte) : Option FaultKind :=
  if Config.codeCap < image.length then some .badInput
  else if image.length < Config.minImageLen then some .badInput
  else if image.take 4 ≠ p.magic.toList ∨ (image.drop 4).take 2 ≠ p.version.toList then
    some .badInput
  else if Config.maxRobots < imageRobotCount image then some .notSupported
  else if Config.heapCap < imageMemSize image then some .notSupported
  else if image.length < Config.hdrLen + imageRobotCount image then some .badInput
  else if imageRecords image = none then some .badInput
  else none

/-- A robot as it is created (70_reset_and_hazards.md R277). Its cells are unspecified there; they are
0 here (log entry 6). -/
def newRobot (memStride entry : Byte) : Robot where
  running := true
  pc := entry.toNat
  sp := 0
  stack := []
  stride := memStride

/-- The entry points of an image (10_state.md R27). -/
def imageEntries (image : List Byte) : List Byte :=
  (List.range (imageRobotCount image)).map fun i => imageByte image (Config.hdrLen + i)

/-- What a load whose checks all pass leaves (70_reset_and_hazards.md R272 to R279). Nothing of the
state before it is kept but the parameters. -/
def State.loaded (s : State) (image : List Byte) : State where
  code := Memory.ofBytes image
  len := image.length
  memSize := imageMemSize image
  memStride := imageByte image 8
  dataSegOffset := imageByte image 9
  robotCount := imageRobotCount image
  entry := imageEntries image
  codeSize := (imageByte image 9).toNat - 11 - (imageByte image 11).toNat
  heap := Store.writeAll 0 [] ((imageRecords image).getD [])
  robots := (imageEntries image).map (newRobot (imageByte image 8))
  sched := .running
  next := 0
  haltedInPass := []
  ticks := 0
  fault := none
  notices := []
  params := s.params
  loads := s.loads + 1

/-- What a failed load leaves (70_reset_and_hazards.md R280): the stores and the configuration
registers hold free values within the bounds of their fields (10_state.md R20, log entry 8). -/
def State.loadFailed (s : State) (k : FaultKind) : State :=
  let free := Config.failedLoad s.loads
  let robotCount := min free.robotCount Config.maxRobots
  { code := Store.writeAll 0 [] (free.code.filter fun c => decide (c.1 < Config.codeCap))
    len := min free.len Config.codeCap
    memSize := min free.memSize Config.heapCap
    memStride := free.memStride
    dataSegOffset := free.dataSegOffset
    robotCount := robotCount
    entry := (List.range robotCount).map fun i => free.entry.getD i 0
    codeSize := free.codeSize
    heap := Store.writeAll 0 [] (free.heap.filter fun c => decide (c.1 < Config.heapCap))
    robots := []
    sched := .loadError
    next := 0
    haltedInPass := []
    ticks := 0
    fault := some { kind := k, robot := none, pc := none, sp := none }
    notices := []
    params := s.params
    loads := s.loads + 1 }

/-- The host's Reset and load, allowed in every state (60_exceptions.md R260,
70_reset_and_hazards.md R270). -/
def State.load (s : State) (image : List Byte) : State :=
  match loadCheck s.params image with
  | some k => s.loadFailed k
  | none => s.loaded image

end Sys2Proof.Machine
end

