-- ==== Sys2Proof/Machine/HostInterface.lean ====
section
/-!
DEFINITION. The host's Run (60_exceptions.md R260, R261). Reset and load is `State.load`, Step is
`step`, and Read back reads the fields of `State`, every one of them.
-/

namespace Sys2Proof.Machine

/-- Run with a step bound: steps until the run ends or `n` steps have passed
(60_exceptions.md R260). -/
def hostRun : Nat → State → Host.Outcome State Fault Refusal
  | 0, s => .next s
  | n + 1, s =>
    if s.sched = .running then
      match step s with
      | .next t => hostRun n t
      | .fault f => .fault f
      | .refused f => .refused f
    else .next s

/-- Run without a bound ends in `t`; a program that never halts has no such `t`
(60_exceptions.md R244, R246). -/
def RunsTo (s t : State) : Prop := ∃ n, hostRun n s = .next t ∧ t.sched ≠ .running

end Sys2Proof.Machine
end

