-- ==== Sys2Proof/Safety.lean ====
section
/-!
DEFINITION. The terms the statements use: which robot is due, what a completed and a faulted tick leave,
what holds of every state of a run.
-/

namespace Sys2Proof.Safety

open Sys2Proof.Machine

/-- A value a `W`-bit cell can hold (00_scope.md R12). -/
abbrev InRange (w : Nat) (v : Int) : Prop := -(2 ^ (w - 1) : Int) ≤ v ∧ v < (2 ^ (w - 1) : Int)

/-- `v` is `wrap_W(n)`: in the range of a cell, and congruent to `n` modulo `2^W` (00_scope.md R12). -/
abbrev IsWrap (w : Nat) (n v : Int) : Prop := InRange w v ∧ (2 ^ w : Int) ∣ v - n

/-- Bit `n` of the two's-complement representation of a cell, by floor division (00_scope.md R12). -/
abbrev cellBit (v : Int) (n : Nat) : Int := v / 2 ^ n % 2

/-- Robot `j`, whose registers are `r`, is the one the next scheduler step ticks: the least running
index from `next` on (60_exceptions.md R242). -/
abbrev Due (s : State) (j : Nat) (r : Robot) : Prop :=
  s.robots[j]? = some r ∧ r.running = true ∧ s.next ≤ j ∧
    ∀ k, k < j → s.next ≤ k → (s.robots[k]?.map fun q => q.running) ≠ some true

/-- Running `i` completes the tick of robot `j`: the robot now has the registers `r'`, the heap is
`heap'`, one more instruction is counted, the next robot to consider is the one after `j`, and
EVERYTHING ELSE of the state is as before (40_execution_cycle.md R110, 60_exceptions.md R242). -/
def Completes (i : Instr) (s : State) (j : Nat) (r' : Robot) (heap' : Memory) : Prop :=
  exec i s =
    .next { s with
      robots := s.robots.set j r', heap := heap', ticks := s.ticks + 1, next := j + 1 }

/-- Running `i` raises fault kind `k` in robot `j`, whose registers before the tick are `r`: the fault
record names the kind, the robot, its `pc` and its `sp`, the run is FAULTED, the heap is `heap'`, and
EVERYTHING ELSE of the state is as before (40_execution_cycle.md R116, 60_exceptions.md R227 to
R229). -/
def Raises (i : Instr) (s : State) (j : Nat) (r : Robot) (k : FaultKind) (heap' : Memory) : Prop :=
  exec i s =
    .next { s with
      heap := heap'
      fault := some { kind := k, robot := some j, pc := some r.pc, sp := some r.sp }
      sched := .faulted }

/-- Every cell of a stack but number `n` is as before. -/
def SameCellsBut (n : Nat) (r r' : Robot) : Prop := ∀ k, k ≠ n → r'.cell k = r.cell k

/-- A binary STACK operation that completed: the cell below the top holds `v`, the top cell is gone
from the stack, every other cell and register but `pc` is as before (44_stack_alu.md R170). -/
def BinaryResult (r r' : Robot) (v : Cell) : Prop :=
  r'.cell (r.sp - 2) = v ∧ SameCellsBut (r.sp - 2) r r' ∧ r'.sp = r.sp - 1 ∧ r'.pc = r.pc + 1 ∧
    r'.running = r.running ∧ r'.stride = r.stride

/-- The heap offset of visit `i` of a READ or WRITE of a robot with registers `r`, from its top four
cells `x`, `y`, `dx`, `dy` and its row stride (20_memory.md R64, 43_bit_io.md R151). -/
def visitOffset (r : Robot) (i : Nat) : Int :=
  (r.cell (r.sp - 4) + i * r.cell (r.sp - 2)) +
    (r.cell (r.sp - 3) + i * r.cell (r.sp - 1)) * r.stride.toNat

/-- Visit `i` is inside the heap (20_memory.md R63). -/
abbrev VisitInHeap (s : State) (r : Robot) (i : Nat) : Prop :=
  0 ≤ visitOffset r i ∧ visitOffset r i < s.memSize

/-- `heap'` is `heap` with the bits of `v` drawn by the first `n` visits: a byte no such visit hits
is as before, and the last visit that hits a byte leaves its bit of `v` there
(43_bit_io.md R152, R155). -/
def Drawn (r : Robot) (v : Cell) (n : Nat) (heap heap' : Memory) : Prop :=
  (∀ a : Nat, (∀ i, i < n → visitOffset r i ≠ a) → heap'.read a = heap.read a) ∧
    ∀ i, i < n → (∀ k, i < k → k < n → visitOffset r k ≠ visitOffset r i) →
      ((heap'.read (visitOffset r i).toNat).toNat : Int) = cellBit v (7 - i)

/-- A load ended in an error of kind `k` (70_reset_and_hazards.md R280). -/
def LoadFails (s : State) (image : List Byte) (k : FaultKind) : Prop :=
  (s.load image).sched = .loadError ∧
    (s.load image).fault = some { kind := k, robot := none, pc := none, sp := none } ∧
    (s.load image).robots = [] ∧ (s.load image).ticks = 0 ∧ (s.load image).notices = []

/-- The header fields an image states, and the address and value of its initializer record `n`
(10_state.md R23, R25, R26, 70_reset_and_hazards.md R275). -/
abbrev byteAt (image : List Byte) (a : Nat) : Nat := (image.getD a 0).toNat

abbrev headerMemSize (image : List Byte) : Nat := byteAt image 6 * 256 + byteAt image 7

abbrev recordAt (image : List Byte) (n : Nat) : Nat := byteAt image 9 + 3 * n

abbrev recordAddr (image : List Byte) (n : Nat) : Nat :=
  byteAt image (recordAt image n) * 256 + byteAt image (recordAt image n + 1)

abbrev recordValue (image : List Byte) (n : Nat) : Byte := image.getD (recordAt image n + 2) 0

/-- The initializer records are well formed: none is cut short and none lies outside the heap
(70_reset_and_hazards.md R275). -/
def RecordsFit (image : List Byte) : Prop :=
  3 ∣ image.length - byteAt image 9 ∧
    ∀ n, recordAt image n < image.length → recordAddr image n < headerMemSize image

/-- What holds of the registers of every robot of a run. -/
structure RobotInv (s : State) (r : Robot) : Prop where
  /-- `pc` stays in `0 .. CODE_CAP` (10_state.md R33). -/
  pc_le : r.pc ≤ Config.codeCap
  /-- `0 ≤ sp ≤ stack.capacity` at all times (10_state.md R34). -/
  sp_le : r.sp ≤ s.params.stackCap
  stack_canonical : Store.wf (0 : Cell) r.stack = true
  /-- The stack has `STACK_CAP` cells (10_state.md R35). -/
  stack_bounded : ∀ c ∈ r.stack, c.1 < s.params.stackCap
  /-- Every cell is a `CELL_BITS`-bit value (00_scope.md R12). -/
  cells_in_range : ∀ c ∈ r.stack, InRange s.params.cellBits c.2
  /-- The robot's stride is the image's (10_state.md R37). -/
  stride_eq : r.stride = s.memStride

/-- What holds of every state a run goes through, from power-up on. -/
structure MachineInv (s : State) : Prop where
  params_valid : s.params.valid
  /-- The build's stacks are as deep as the loaded image's heap is large (00_scope.md R9, 10_state.md
  R35). Before a load and after a failed one no image is loaded. -/
  stackCap_admits : s.sched ≠ .idle → s.sched ≠ .loadError → s.params.admits s.memSize
  code_canonical : s.code.wf = true
  code_bounded : ∀ c ∈ s.code, c.1 < Config.codeCap
  heap_canonical : s.heap.wf = true
  heap_bounded : ∀ c ∈ s.heap, c.1 < Config.heapCap
  /-- 10_state.md R22. -/
  len_le : s.len ≤ Config.codeCap
  /-- 10_state.md R23. -/
  memSize_le : s.memSize ≤ Config.heapCap
  /-- 10_state.md R26. -/
  robotCount_le : s.robotCount ≤ Config.maxRobots
  /-- 10_state.md R27. -/
  entry_length : s.entry.length = s.robotCount
  /-- 10_state.md R31, R38: robots exist exactly after a load that succeeded. -/
  robots_length :
    s.robots.length = if s.sched = .idle ∨ s.sched = .loadError then 0 else s.robotCount
  robots_inv : ∀ r ∈ s.robots, RobotInv s r
  /-- 10_state.md R39. -/
  next_le : s.next ≤ s.robots.length
  halted_rising : s.haltedInPass.Pairwise (· < ·)
  /-- The robots to report have had their tick in this pass and are halted (60_exceptions.md R243). -/
  halted_halted :
    ∀ k ∈ s.haltedInPass, k < s.next ∧ (s.robots[k]?.map fun q => q.running) = some false
  /-- A record exists exactly after a fault or a load error (10_state.md R38, R41). -/
  fault_iff : s.fault.isSome = true ↔ s.sched = .faulted ∨ s.sched = .loadError
  /-- 60_exceptions.md R244. -/
  done_halted : s.sched = .done → ∀ r ∈ s.robots, r.running = false

/-- The fault record of a faulted run is right: it names a robot of the table and holds that robot's
`pc` and `sp`, which no later step changes, and a kind that a tick can raise (60_exceptions.md R221,
R227, R229). -/
def RecordRight (s : State) : Prop :=
  s.sched = .faulted →
    ∃ f j r, s.fault = some f ∧ f.robot = some j ∧ s.robots[j]? = some r ∧
      f.pc = some r.pc ∧ f.sp = some r.sp ∧
      (f.kind = .badInput ∨ f.kind = .runtimeStackUnderflow ∨ f.kind = .runtimeDivisionByZero ∨
        f.kind = .outOfBounds)

end Sys2Proof.Safety
end

