-- ==== Sys2Proof/Certificates/Slice0/Obligations.lean ====
section
/-!
DEFINITION. The statements for the provers.
-/

open Sys2Proof Sys2Proof.Machine Sys2Proof.Safety

/-! Encoding -/

/-- Decoding the bytes of a well-formed instruction gives the instruction back, with every operand at
every value, and leaves the bytes after it (30_encoding.md R80 to R94). -/
def Obligations.DecodeOfEncodeGivesTheInstruction : Prop :=
  ∀ (i : Instr) (rest : List Byte), i.wellFormed = true → decode (encode i ++ rest) = .ok i rest

/-- Every opcode byte with every byte after it decodes to a well-formed instruction whose bytes are
exactly those read (30_encoding.md R94). -/
def Obligations.EncodeOfDecodeGivesTheBytes : Prop :=
  ∀ b0 b1 : Byte,
    (decodePair b0 b1).wellFormed = true ∧
      encode (decodePair b0 b1) = if lengthOfOpcode b0 = 2 then [b0, b1] else [b0]

/-- The complete map of the opcode byte, with the operands each byte gives (30_encoding.md R85, R86,
R91). -/
def Obligations.OpcodeMapNamesEveryByte : Prop :=
  ∀ b0 b1 : Byte,
    (b0.toNat ≤ 0x0F → ∃ arg, decodePair b0 b1 = .halt arg ∧ arg.toNat = b0.toNat) ∧
    (b0.toNat = 0x10 ∨ (0x12 ≤ b0.toNat ∧ b0.toNat ≤ 0x1F) →
      ∃ arg, decodePair b0 b1 = .read arg ∧ arg.toNat = b0.toNat - 0x10) ∧
    (b0.toNat = 0x11 → decodePair b0 b1 = .write) ∧
    (b0.toNat = 0x20 → decodePair b0 b1 = .sub) ∧
    (b0.toNat = 0x21 → decodePair b0 b1 = .add) ∧
    (b0.toNat = 0x22 → decodePair b0 b1 = .mul) ∧
    (b0.toNat = 0x23 → decodePair b0 b1 = .div) ∧
    (b0.toNat = 0x24 → decodePair b0 b1 = .mod) ∧
    (b0.toNat = 0x25 → decodePair b0 b1 = .and) ∧
    (b0.toNat = 0x26 → decodePair b0 b1 = .or) ∧
    (b0.toNat = 0x27 → decodePair b0 b1 = .not) ∧
    (b0.toNat = 0x28 → decodePair b0 b1 = .pop) ∧
    (b0.toNat = 0x29 → decodePair b0 b1 = .swap) ∧
    (b0.toNat = 0x2A → decodePair b0 b1 = .dup) ∧
    (0x2B ≤ b0.toNat ∧ b0.toNat ≤ 0x2F →
      ∃ arg, decodePair b0 b1 = .reservedStack arg ∧ arg.toNat = b0.toNat - 0x20) ∧
    (0x30 ≤ b0.toNat ∧ b0.toNat ≤ 0x3E →
      ∃ t, decodePair b0 b1 = .jmpS t ∧ t.toNat = b0.toNat - 0x30) ∧
    (b0.toNat = 0x3F → decodePair b0 b1 = .jmpL b1) ∧
    (0x40 ≤ b0.toNat ∧ b0.toNat ≤ 0x4E →
      ∃ t, decodePair b0 b1 = .jzS t ∧ t.toNat = b0.toNat - 0x40) ∧
    (b0.toNat = 0x4F → decodePair b0 b1 = .jzL b1) ∧
    (0x50 ≤ b0.toNat ∧ b0.toNat ≤ 0x7F →
      ∃ op arg, decodePair b0 b1 = .reservedOp op arg ∧ op.toNat = b0.toNat / 16 ∧
        arg.toNat = b0.toNat % 16) ∧
    (0x80 ≤ b0.toNat →
      ∃ addr, decodePair b0 b1 = .push addr ∧ addr.toNat = (b0.toNat - 0x80) * 256 + b1.toNat)

/-- The opcode byte alone gives the length: what is decoded is what stands after one byte, or after
two where bit 7 is set or the byte is 0x3F or 0x4F, and only a missing byte is refused
(30_encoding.md R84). -/
def Obligations.LengthComesFromTheOpcodeByteAlone : Prop :=
  ∀ (b0 : Byte) (rest : List Byte),
    let two := 0x80 ≤ b0.toNat ∨ b0.toNat = 0x3F ∨ b0.toNat = 0x4F
    (¬two → ∃ i, decode (b0 :: rest) = .ok i rest) ∧
      (two → rest ≠ [] → ∃ i, decode (b0 :: rest) = .ok i rest.tail) ∧
      (two → rest = [] → decode (b0 :: rest) = .refused .noEscapeByte)

/-- A few words written out from the spec's encodings (30_encoding.md R85, R91, R95). -/
def Obligations.WrittenOutWordsDecode : Prop :=
  decode [0x81, 0x23] = .ok (.push 0x123) [] ∧ decode [0xFF, 0xFF] = .ok (.push 32767) [] ∧
    decode [0x07] = .ok (.halt 7) [] ∧ decode [0x12] = .ok (.read 2) [] ∧
    decode [0x11] = .ok .write [] ∧ decode [0x23] = .ok .div [] ∧
    decode [0x2F] = .ok (.reservedStack 15) [] ∧ decode [0x35] = .ok (.jmpS 5) [] ∧
    decode [0x3F, 0x20] = .ok (.jmpL 32) [] ∧ decode [0x4F, 0x15] = .ok (.jzL 21) [] ∧
    decode [0x5A] = .ok (.reservedOp 5 10) []

/-! The scheduler step -/

/-- A step runs the decoded instruction: in a running block, where robot `j` is due and its opcode
byte lies in the image, `step` is `exec` of what the bytes at its `pc` decode to. The second byte is
the code store's; where it lies past the image the instruction itself raises OutOfBounds
(40_execution_cycle.md R112, R113, log entry 11). -/
def Obligations.StepRunsTheDecodedInstruction : Prop :=
  ∀ (s : State) (j : Nat) (r : Robot) (i : Instr) (rest : List Byte),
    s.sched = .running → Due s j r → r.pc < s.len →
      decode [s.code.read r.pc, s.code.read (r.pc + 1)] = .ok i rest → i.wellFormed = true →
        step s = exec i s

/-- A step runs the instruction whose encoding stands at the `pc` of the robot that is due
(40_execution_cycle.md R112, R113, 30_encoding.md R91). -/
def Obligations.StepRunsTheInstructionEncodedAtThePc : Prop :=
  ∀ (s : State) (j : Nat) (r : Robot) (i : Instr),
    s.sched = .running → Due s j r → r.pc < s.len → i.wellFormed = true →
      (∀ (n : Nat) (b : Byte), (encode i)[n]? = some b → s.code.read (r.pc + n) = b) →
        step s = exec i s

/-- An opcode byte at or past the image length is not fetched: OutOfBounds, with nothing else done
(40_execution_cycle.md R112, 20_memory.md R63, 45_control.md R203, 60_exceptions.md R225). -/
def Obligations.FetchPastTheImageFaults : Prop :=
  ∀ (s : State) (j : Nat) (r : Robot),
    s.sched = .running → Due s j r → s.len ≤ r.pc →
      step s =
        .next { s with
          fault := some { kind := .outOfBounds, robot := some j, pc := some r.pc, sp := some r.sp }
          sched := .faulted }

/-- The end of a pass: the robots that halted in it are reported with their last value and the tick
count, and the run is DONE exactly when no robot is running, else the next pass begins
(60_exceptions.md R242, R243, R244, R251). -/
def Obligations.EndOfPassReportsHalts : Prop :=
  ∀ s : State,
    s.sched = .running → (∀ k r, s.next ≤ k → s.robots[k]? = some r → r.running = false) →
      ∃ t, step s = .next t ∧
        t.notices =
          s.notices ++ s.haltedInPass.map (fun j =>
            { robot := j
              lastValue := s.robots[j]?.bind fun r =>
                if 0 < r.sp then some (r.cell (r.sp - 1)) else none
              ticksAtReport := s.ticks }) ∧
        ((∃ r ∈ s.robots, r.running = true) →
          t = { s with notices := t.notices, haltedInPass := [], next := 0 }) ∧
        ((∀ r ∈ s.robots, r.running = false) →
          t = { s with notices := t.notices, haltedInPass := [], sched := .done })

/-- Outside RUNNING a step does nothing (60_exceptions.md R241, R260). -/
def Obligations.StepOutsideARunChangesNothing : Prop :=
  ∀ s : State, s.sched ≠ .running → step s = .next s

/-- Every step answers a next state: no step stops the model, so no run raises NotRunning
(40_execution_cycle.md R110, 60_exceptions.md R223, R247). -/
def Obligations.EveryStepAnswersANextState : Prop :=
  ∀ s : State, ∃ t, step s = .next t

/-- Where no robot from `next` on is running (an empty table, or the end of a pass, with robots that
run on below `next` or without) `exec` has no robot to run and answers the model's own fault
`noRobot`. The spec has no such case; that `exec` answers a fault there is the MODEL's convention
(log entry 5). -/
def Obligations.NoTickWithoutARunningRobot : Prop :=
  ∀ (i : Instr) (s : State),
    (∀ k r, s.next ≤ k → s.robots[k]? = some r → r.running = false) →
      exec i s = .fault .noRobot

/-- Within a pass robots are ticked in strictly ascending order, and no running robot is passed over
(60_exceptions.md R240, R242). -/
def Obligations.RobotsTickInAscendingOrder : Prop :=
  ∀ (s t : State) (j k : Nat) (r q : Robot),
    s.sched = .running → Due s j r → step s = .next t → t.sched = .running → Due t k q →
      j < k ∧ ∀ m p, j < m → m < k → s.robots[m]? = some p → p.running = false

/-- A tick that completes counts one instruction and moves the schedule on; a tick that faults counts
none and ends the run (40_execution_cycle.md R119, 60_exceptions.md R228, R250). -/
def Obligations.TicksCountCompletedInstructions : Prop :=
  ∀ (s t : State) (j : Nat) (r : Robot),
    s.sched = .running → Due s j r → step s = .next t →
      (t.sched = .running ∧ t.ticks = s.ticks + 1 ∧ t.next = j + 1 ∧ t.fault = s.fault) ∨
        (t.sched = .faulted ∧ t.ticks = s.ticks ∧ t.next = s.next ∧ t.fault.isSome = true)

/-- The host's bounded runs compose: stopping after `m` steps and going on for `n` more is a run of
`m + n` (60_exceptions.md R260, R261). -/
def Obligations.BoundedRunsCompose : Prop :=
  ∀ (m n : Nat) (s u : State),
    hostRun (m + n) s = .next u ↔ ∃ t, hostRun m s = .next t ∧ hostRun n t = .next u

/-- `withFetchWord` puts the instruction where the very next step fetches (the model's convention, log
entry 13). -/
def Obligations.FetchWordIsRunNext : Prop :=
  ∀ (s : State) (nbits w : Nat) (i : Instr),
    decodeTableWord nbits w = some i →
      step (s.withFetchWord nbits w) = exec i (s.withFetchWord nbits w)

/-! The instructions -/

/-- PUSH: its encoding, its checks in order, and its effect (41_memory_push.md R130). -/
def Obligations.PushPushesTheHeapByte : Prop :=
  (∀ b0 b1 : Byte, 0x80 ≤ b0.toNat →
    ∃ addr, decode [b0, b1] = .ok (.push addr) [] ∧
      addr.toNat = (b0.toNat - 0x80) * 256 + b1.toNat) ∧
  ∀ (addr : BitVec 15) (s : State) (j : Nat) (r : Robot), Due s j r →
    (s.len ≤ r.pc + 1 → Raises (.push addr) s j r .outOfBounds s.heap) ∧
    (r.pc + 1 < s.len → s.memSize ≤ addr.toNat → Raises (.push addr) s j r .outOfBounds s.heap) ∧
    (r.pc + 1 < s.len → addr.toNat < s.memSize → s.params.stackCap ≤ r.sp →
      Raises (.push addr) s j r .outOfBounds s.heap) ∧
    (r.pc + 1 < s.len → addr.toNat < s.memSize → r.sp < s.params.stackCap →
      ∃ r', Completes (.push addr) s j r' s.heap ∧
        r'.cell r.sp = (s.heap.read addr.toNat).toNat ∧ SameCellsBut r.sp r r' ∧
        r'.sp = r.sp + 1 ∧ r'.pc = r.pc + 2 ∧ r'.running = r.running ∧ r'.stride = r.stride)

/-- HALT: every byte from 0x00 to 0x0F; the robot stops, `pc` moves on, the instruction counts, and
the robot joins those to report; nothing else changes (42_halt.md R140). -/
def Obligations.HaltStopsTheRobot : Prop :=
  (∀ b0 : Byte, b0.toNat ≤ 0x0F → ∃ arg, decode [b0] = .ok (.halt arg) []) ∧
  ∀ (arg : BitVec 4) (s : State) (j : Nat) (r : Robot), Due s j r →
    ∃ halted, (∀ k, k ∈ halted ↔ k = j ∨ k ∈ s.haltedInPass) ∧
      exec (.halt arg) s =
        .next { s with
          robots := s.robots.set j { r with running := false, pc := r.pc + 1 }
          ticks := s.ticks + 1, next := j + 1, haltedInPass := halted }

/-- WRITE: underflow before any heap access; all eight visits in range, and the byte of each holds its
bit of `v`; or the first visit out of range raises, with the visits before it stored
(43_bit_io.md R152, R155, 20_memory.md R64, 40_execution_cycle.md R116). -/
def Obligations.WriteDrawsEightBits : Prop :=
  decode [0x11] = .ok .write [] ∧
  ∀ (s : State) (j : Nat) (r : Robot), s.params.valid → Due s j r →
    (r.sp < 5 → Raises .write s j r .runtimeStackUnderflow s.heap) ∧
    (5 ≤ r.sp → (∀ i, i < 8 → VisitInHeap s r i) →
      ∃ heap', Completes .write s j { r with sp := r.sp - 5, pc := r.pc + 1 } heap' ∧
        Drawn r (r.cell (r.sp - 5)) 8 s.heap heap') ∧
    (5 ≤ r.sp → ∀ n, n < 8 → (∀ i, i < n → VisitInHeap s r i) → ¬VisitInHeap s r n →
      ∃ heap', Raises .write s j r .outOfBounds heap' ∧
        Drawn r (r.cell (r.sp - 5)) n s.heap heap')

/-- READ: underflow before any heap access; a visit out of range raises with the heap as it was; else
the eight bytes are gathered, the first the most significant, in the build's mode
(43_bit_io.md R153, R154, 20_memory.md R64). -/
def Obligations.ReadGathersEightBits : Prop :=
  (∀ b0 : Byte, b0.toNat = 0x10 ∨ (0x12 ≤ b0.toNat ∧ b0.toNat ≤ 0x1F) →
    ∃ arg, decode [b0] = .ok (.read arg) []) ∧
  ∀ (arg : BitVec 4) (s : State) (j : Nat) (r : Robot), s.params.valid → Due s j r →
    (r.sp < 4 → Raises (.read arg) s j r .runtimeStackUnderflow s.heap) ∧
    (4 ≤ r.sp → (∃ i, i < 8 ∧ ¬VisitInHeap s r i) →
      Raises (.read arg) s j r .outOfBounds s.heap) ∧
    (4 ≤ r.sp → (∀ i, i < 8 → VisitInHeap s r i) →
      ∃ r', Completes (.read arg) s j r' s.heap ∧
        SameCellsBut (r.sp - 4) r r' ∧ r'.sp = r.sp - 3 ∧ r'.pc = r.pc + 1 ∧
        r'.running = r.running ∧ r'.stride = r.stride ∧
        (s.params.bitReadMode = .lsb →
          r'.cell (r.sp - 4) =
            ∑ i ∈ Finset.range 8,
              (((s.heap.read (visitOffset r i).toNat).toNat % 2 * 2 ^ (7 - i) : Nat) : Int)) ∧
        (s.params.bitReadMode = .nonzero →
          r'.cell (r.sp - 4) =
            ∑ i ∈ Finset.range 8,
              (((if s.heap.read (visitOffset r i).toNat = 0 then 0 else 1) * 2 ^ (7 - i) : Nat) :
                Int)) ∧
        (s.params.bitReadMode = .raw →
          IsWrap s.params.cellBits
            (∑ i ∈ Finset.range 8,
              (((s.heap.read (visitOffset r i).toNat).toNat * 2 ^ (7 - i) : Nat) : Int))
            (r'.cell (r.sp - 4))))

/-- What WRITE drew, READ gets back: at the same place, step vector and stride, with eight distinct
offsets whose bytes are still those WRITE left, in every read mode (43_bit_io.md R156). -/
def Obligations.ReadReturnsWhatWriteDrew : Prop :=
  ∀ (arg : BitVec 4) (s t u : State) (j k : Nat) (r q : Robot),
    s.params.valid → u.params.valid → Due s j r → 5 ≤ r.sp →
      (∀ i, i < 8 → VisitInHeap s r i) →
      (∀ i m, i < m → m < 8 → visitOffset r i ≠ visitOffset r m) →
      exec .write s = .next t →
      Due u k q → 4 ≤ q.sp → u.memSize = s.memSize → q.stride = r.stride →
      (∀ n, 1 ≤ n → n ≤ 4 → q.cell (q.sp - n) = r.cell (r.sp - n)) →
      (∀ i, i < 8 →
        u.heap.read (visitOffset r i).toNat = t.heap.read (visitOffset r i).toNat) →
        ∃ q', Completes (.read arg) u k q' u.heap ∧ q'.sp = q.sp - 3 ∧
          q'.cell (q.sp - 4) = r.cell (r.sp - 5) % 256 ∧
          (q'.cell (q.sp - 4) = r.cell (r.sp - 5) ↔
            0 ≤ r.cell (r.sp - 5) ∧ r.cell (r.sp - 5) ≤ 255)

/-- SUB (44_stack_alu.md R170, R171). -/
def Obligations.SubPushesTheWrappedDifference : Prop :=
  decode [0x20] = .ok .sub [] ∧
  ∀ (s : State) (j : Nat) (r : Robot), s.params.valid → Due s j r →
    (r.sp < 2 → Raises .sub s j r .runtimeStackUnderflow s.heap) ∧
    (2 ≤ r.sp →
      ∃ r' v, Completes .sub s j r' s.heap ∧ BinaryResult r r' v ∧
        IsWrap s.params.cellBits (r.cell (r.sp - 2) - r.cell (r.sp - 1)) v)

/-- ADD (44_stack_alu.md R170, R172). -/
def Obligations.AddPushesTheWrappedSum : Prop :=
  decode [0x21] = .ok .add [] ∧
  ∀ (s : State) (j : Nat) (r : Robot), s.params.valid → Due s j r →
    (r.sp < 2 → Raises .add s j r .runtimeStackUnderflow s.heap) ∧
    (2 ≤ r.sp →
      ∃ r' v, Completes .add s j r' s.heap ∧ BinaryResult r r' v ∧
        IsWrap s.params.cellBits (r.cell (r.sp - 2) + r.cell (r.sp - 1)) v)

/-- MUL (44_stack_alu.md R170, R173). -/
def Obligations.MulPushesTheWrappedProduct : Prop :=
  decode [0x22] = .ok .mul [] ∧
  ∀ (s : State) (j : Nat) (r : Robot), s.params.valid → Due s j r →
    (r.sp < 2 → Raises .mul s j r .runtimeStackUnderflow s.heap) ∧
    (2 ≤ r.sp →
      ∃ r' v, Completes .mul s j r' s.heap ∧ BinaryResult r r' v ∧
        IsWrap s.params.cellBits (r.cell (r.sp - 2) * r.cell (r.sp - 1)) v)

/-- DIV: the quotient `q` is the one rounded toward zero, the remainder it leaves being smaller than
the divisor and of the dividend's sign (44_stack_alu.md R174, 00_scope.md R12). -/
def Obligations.DivPushesTheTruncatedQuotient : Prop :=
  decode [0x23] = .ok .div [] ∧
  ∀ (s : State) (j : Nat) (r : Robot), s.params.valid → Due s j r →
    (r.sp = 0 → Raises .div s j r .runtimeStackUnderflow s.heap) ∧
    (0 < r.sp → r.cell (r.sp - 1) = 0 → Raises .div s j r .runtimeDivisionByZero s.heap) ∧
    (r.sp = 1 → r.cell (r.sp - 1) ≠ 0 → Raises .div s j r .runtimeStackUnderflow s.heap) ∧
    (2 ≤ r.sp → r.cell (r.sp - 1) ≠ 0 →
      ∃ r' v q, Completes .div s j r' s.heap ∧ BinaryResult r r' v ∧
        IsWrap s.params.cellBits q v ∧
        |r.cell (r.sp - 2) - r.cell (r.sp - 1) * q| < |r.cell (r.sp - 1)| ∧
        (0 ≤ r.cell (r.sp - 2) → 0 ≤ r.cell (r.sp - 2) - r.cell (r.sp - 1) * q) ∧
        (r.cell (r.sp - 2) ≤ 0 → r.cell (r.sp - 2) - r.cell (r.sp - 1) * q ≤ 0))

/-- MOD: the remainder that the quotient rounded toward zero leaves; it lies in the cell range with
the dividend (44_stack_alu.md R175, 00_scope.md R12). -/
def Obligations.ModPushesTheRemainder : Prop :=
  decode [0x24] = .ok .mod [] ∧
  ∀ (s : State) (j : Nat) (r : Robot), Due s j r →
    (r.sp = 0 → Raises .mod s j r .runtimeStackUnderflow s.heap) ∧
    (0 < r.sp → r.cell (r.sp - 1) = 0 → Raises .mod s j r .runtimeDivisionByZero s.heap) ∧
    (r.sp = 1 → r.cell (r.sp - 1) ≠ 0 → Raises .mod s j r .runtimeStackUnderflow s.heap) ∧
    (2 ≤ r.sp → r.cell (r.sp - 1) ≠ 0 →
      ∃ r' v q, Completes .mod s j r' s.heap ∧ BinaryResult r r' v ∧
        r.cell (r.sp - 2) = r.cell (r.sp - 1) * q + v ∧ |v| < |r.cell (r.sp - 1)| ∧
        (0 ≤ r.cell (r.sp - 2) → 0 ≤ v) ∧ (r.cell (r.sp - 2) ≤ 0 → v ≤ 0) ∧
        (InRange s.params.cellBits (r.cell (r.sp - 2)) → InRange s.params.cellBits v))

/-- AND, bit by bit (44_stack_alu.md R170, R176). -/
def Obligations.AndPushesTheBitwiseAnd : Prop :=
  decode [0x25] = .ok .and [] ∧
  ∀ (s : State) (j : Nat) (r : Robot), s.params.valid → Due s j r →
    (r.sp < 2 → Raises .and s j r .runtimeStackUnderflow s.heap) ∧
    (2 ≤ r.sp →
      ∃ r' v, Completes .and s j r' s.heap ∧ BinaryResult r r' v ∧
        InRange s.params.cellBits v ∧
        ∀ n, n < s.params.cellBits →
          (cellBit v n = 1 ↔
            cellBit (r.cell (r.sp - 2)) n = 1 ∧ cellBit (r.cell (r.sp - 1)) n = 1))

/-- OR, bit by bit (44_stack_alu.md R170, R177). -/
def Obligations.OrPushesTheBitwiseOr : Prop :=
  decode [0x26] = .ok .or [] ∧
  ∀ (s : State) (j : Nat) (r : Robot), s.params.valid → Due s j r →
    (r.sp < 2 → Raises .or s j r .runtimeStackUnderflow s.heap) ∧
    (2 ≤ r.sp →
      ∃ r' v, Completes .or s j r' s.heap ∧ BinaryResult r r' v ∧
        InRange s.params.cellBits v ∧
        ∀ n, n < s.params.cellBits →
          (cellBit v n = 1 ↔
            cellBit (r.cell (r.sp - 2)) n = 1 ∨ cellBit (r.cell (r.sp - 1)) n = 1))

/-- NOT: the top cell complemented in place; on a cell in range that is `-a - 1`
(44_stack_alu.md R178). -/
def Obligations.NotComplementsTheTop : Prop :=
  decode [0x27] = .ok .not [] ∧
  ∀ (s : State) (j : Nat) (r : Robot), s.params.valid → Due s j r →
    (r.sp = 0 → Raises .not s j r .runtimeStackUnderflow s.heap) ∧
    (0 < r.sp →
      ∃ r', Completes .not s j r' s.heap ∧ SameCellsBut (r.sp - 1) r r' ∧
        r'.sp = r.sp ∧ r'.pc = r.pc + 1 ∧ r'.running = r.running ∧ r'.stride = r.stride ∧
        (∀ n, n < s.params.cellBits →
          cellBit (r'.cell (r.sp - 1)) n = 1 - cellBit (r.cell (r.sp - 1)) n) ∧
        (InRange s.params.cellBits (r.cell (r.sp - 1)) →
          r'.cell (r.sp - 1) = -r.cell (r.sp - 1) - 1))

/-- POP: `sp` goes down by one and no cell changes, the discarded one neither
(44_stack_alu.md R179). -/
def Obligations.PopDiscardsTheTop : Prop :=
  decode [0x28] = .ok .pop [] ∧
  ∀ (s : State) (j : Nat) (r : Robot), Due s j r →
    (r.sp = 0 → Raises .pop s j r .runtimeStackUnderflow s.heap) ∧
    (0 < r.sp → Completes .pop s j { r with sp := r.sp - 1, pc := r.pc + 1 } s.heap)

/-- SWAP: the top two cells exchanged, every other cell and `sp` as before (44_stack_alu.md R180). -/
def Obligations.SwapExchangesTheTopTwo : Prop :=
  decode [0x29] = .ok .swap [] ∧
  ∀ (s : State) (j : Nat) (r : Robot), Due s j r →
    (r.sp < 2 → Raises .swap s j r .runtimeStackUnderflow s.heap) ∧
    (2 ≤ r.sp →
      ∃ r', Completes .swap s j r' s.heap ∧
        r'.cell (r.sp - 1) = r.cell (r.sp - 2) ∧ r'.cell (r.sp - 2) = r.cell (r.sp - 1) ∧
        (∀ k, k ≠ r.sp - 1 → k ≠ r.sp - 2 → r'.cell k = r.cell k) ∧
        r'.sp = r.sp ∧ r'.pc = r.pc + 1 ∧ r'.running = r.running ∧ r'.stride = r.stride)

/-- DUP: underflow first, then the full stack, else the top cell once more (44_stack_alu.md R181). -/
def Obligations.DupPushesTheTopAgain : Prop :=
  decode [0x2A] = .ok .dup [] ∧
  ∀ (s : State) (j : Nat) (r : Robot), Due s j r →
    (r.sp = 0 → Raises .dup s j r .runtimeStackUnderflow s.heap) ∧
    (0 < r.sp → s.params.stackCap ≤ r.sp → Raises .dup s j r .outOfBounds s.heap) ∧
    (0 < r.sp → r.sp < s.params.stackCap →
      ∃ r', Completes .dup s j r' s.heap ∧
        r'.cell r.sp = r.cell (r.sp - 1) ∧ SameCellsBut r.sp r r' ∧
        r'.sp = r.sp + 1 ∧ r'.pc = r.pc + 1 ∧ r'.running = r.running ∧ r'.stride = r.stride)

/-- The reserved STACK bytes always raise BadInput, whatever the stack and the policy
(44_stack_alu.md R182, 30_encoding.md R93). -/
def Obligations.ReservedStackBytesRaiseBadInput : Prop :=
  (∀ b0 : Byte, 0x2B ≤ b0.toNat → b0.toNat ≤ 0x2F →
    ∃ arg, decode [b0] = .ok (.reservedStack arg) []) ∧
  ∀ (arg : BitVec 4) (s : State) (j : Nat) (r : Robot), Due s j r →
    Raises (.reservedStack arg) s j r .badInput s.heap

/-- The reserved top-level bytes raise BadInput, or are a one-byte no-op that counts, as the build's
policy says (40_execution_cycle.md R117, 30_encoding.md R92). -/
def Obligations.ReservedOpcodesFollowThePolicy : Prop :=
  (∀ b0 : Byte, 0x50 ≤ b0.toNat → b0.toNat ≤ 0x7F →
    ∃ op arg, decode [b0] = .ok (.reservedOp op arg) []) ∧
  ∀ (op arg : BitVec 4) (s : State) (j : Nat) (r : Robot), Due s j r →
    (s.params.unknownOpPolicy = .fault → Raises (.reservedOp op arg) s j r .badInput s.heap) ∧
    (s.params.unknownOpPolicy = .skip →
      Completes (.reservedOp op arg) s j { r with pc := r.pc + 1 } s.heap)

/-- JMP, both forms: `pc` takes the target and nothing else of the robot changes; the long form needs
its escape byte in the image (45_control.md R201). -/
def Obligations.JmpGoesToItsTarget : Prop :=
  (∀ t : BitVec 4, t ≠ 15 → decode [0x3#4 ++ t] = .ok (.jmpS t) []) ∧
  (∀ t : Byte, decode [0x3F, t] = .ok (.jmpL t) []) ∧
  ∀ (s : State) (j : Nat) (r : Robot), Due s j r →
    (∀ target : BitVec 4, Completes (.jmpS target) s j { r with pc := target.toNat } s.heap) ∧
    (∀ target : Byte,
      (s.len ≤ r.pc + 1 → Raises (.jmpL target) s j r .outOfBounds s.heap) ∧
      (r.pc + 1 < s.len → Completes (.jmpL target) s j { r with pc := target.toNat } s.heap))

/-- JZ, both forms: underflow first; then the long form's escape byte, taken or not; then the cell is
popped and the jump taken exactly when it is 0 (45_control.md R202). -/
def Obligations.JzPopsAndJumpsOnZero : Prop :=
  (∀ t : BitVec 4, t ≠ 15 → decode [0x4#4 ++ t] = .ok (.jzS t) []) ∧
  (∀ t : Byte, decode [0x4F, t] = .ok (.jzL t) []) ∧
  ∀ (s : State) (j : Nat) (r : Robot), Due s j r →
    (∀ target : BitVec 4,
      (r.sp = 0 → Raises (.jzS target) s j r .runtimeStackUnderflow s.heap) ∧
      (0 < r.sp → r.cell (r.sp - 1) = 0 →
        Completes (.jzS target) s j { r with sp := r.sp - 1, pc := target.toNat } s.heap) ∧
      (0 < r.sp → r.cell (r.sp - 1) ≠ 0 →
        Completes (.jzS target) s j { r with sp := r.sp - 1, pc := r.pc + 1 } s.heap)) ∧
    (∀ target : Byte,
      (r.sp = 0 → Raises (.jzL target) s j r .runtimeStackUnderflow s.heap) ∧
      (0 < r.sp → s.len ≤ r.pc + 1 → Raises (.jzL target) s j r .outOfBounds s.heap) ∧
      (0 < r.sp → r.pc + 1 < s.len → r.cell (r.sp - 1) = 0 →
        Completes (.jzL target) s j { r with sp := r.sp - 1, pc := target.toNat } s.heap) ∧
      (0 < r.sp → r.pc + 1 < s.len → r.cell (r.sp - 1) ≠ 0 →
        Completes (.jzL target) s j { r with sp := r.sp - 1, pc := r.pc + 2 } s.heap))

/-! The whole machine -/

/-- Power-up is an IDLE block (70_reset_and_hazards.md R270) that meets the invariant; the values of
the fields the spec leaves unspecified are the model's choice (log entry 2). -/
def Obligations.ResetMeetsTheInvariant : Prop :=
  State.reset.sched = .idle ∧ MachineInv State.reset

/-- Every step keeps the invariant: the stores stay canonical and in bounds, every `pc`, `sp` and cell
stays in its range, the schedule and the fault record stay consistent (10_state.md R20 to R44). -/
def Obligations.StepKeepsTheInvariant : Prop :=
  ∀ s t : State, MachineInv s → step s = .next t → MachineInv t

/-- Every load, whether it succeeds or fails, gives a state that meets the invariant; of an image that
loads, the build must admit the `mem_size` (70_reset_and_hazards.md R270 to R280, 00_scope.md R9).
That the free values of a failed load keep to their bounds is the model's choice (log entry 8). -/
def Obligations.LoadMeetsTheInvariant : Prop :=
  ∀ (s : State) (image : List Byte), s.params.valid →
    ((s.load image).sched = .running → s.params.admits (headerMemSize image)) →
      MachineInv (s.load image)

/-- Every step keeps the fault record right: it names the faulting robot with the `pc` and `sp` that
robot still has, and a kind a tick can raise; so no run records InvalidArgument, NotSupported or
NotRunning (60_exceptions.md R221 to R223, R227, R229). -/
def Obligations.StepKeepsTheFaultRecordRight : Prop :=
  ∀ s t : State, RecordRight s → step s = .next t → RecordRight t

/-- A faulting tick changes nothing but the record, the state of the run and, for a WRITE, the heap:
every robot keeps its registers, and no halt is reported (40_execution_cycle.md R116,
60_exceptions.md R228, R229). -/
def Obligations.AFaultKeepsEveryRobot : Prop :=
  ∀ s t : State, s.sched = .running → step s = .next t → t.sched = .faulted →
    t = { s with heap := t.heap, fault := t.fault, sched := .faulted } ∧
      (t.heap ≠ s.heap →
        ∃ j r, Due s j r ∧ decodePair (s.code.read r.pc) (s.code.read (r.pc + 1)) = .write)

/-- No step writes the code store, the configuration registers or the parameters (10_state.md R21,
R29, 20_memory.md R68, 70_reset_and_hazards.md R283). -/
def Obligations.CodeAndConfigurationNeverChange : Prop :=
  ∀ s t : State, step s = .next t →
    t.code = s.code ∧ t.len = s.len ∧ t.memSize = s.memSize ∧ t.memStride = s.memStride ∧
      t.dataSegOffset = s.dataSegOffset ∧ t.robotCount = s.robotCount ∧ t.entry = s.entry ∧
      t.codeSize = s.codeSize ∧ t.params = s.params ∧ t.loads = s.loads

/-- A tick changes the registers of no robot but the one that is due, and no robot's stride
(10_state.md R37, R43, 40_execution_cycle.md R110, R118). -/
def Obligations.ATickChangesOnlyItsOwnRobot : Prop :=
  ∀ (s t : State) (j : Nat) (r : Robot),
    s.sched = .running → Due s j r → step s = .next t →
      (∀ k, k ≠ j → t.robots[k]? = s.robots[k]?) ∧
        ∃ r', t.robots[j]? = some r' ∧ r'.stride = r.stride

/-- A tick reads nothing of the state but the image length, `mem_size`, the heap and the robot's own
registers (and the parameters): where these agree it does the same, whatever the other robots, their
number and the schedule hold (40_execution_cycle.md R110, 10_state.md R43). -/
def Obligations.ATickReadsOnlyItsOwnRobot : Prop :=
  ∀ (i : Instr) (s u t v : State) (j k : Nat) (r : Robot),
    Due s j r → Due u k r → u.len = s.len → u.memSize = s.memSize → u.heap = s.heap →
      u.params = s.params → exec i s = .next t → exec i u = .next v →
        v.heap = t.heap ∧ v.robots[k]? = t.robots[j]? ∧ (s.ticks < t.ticks ↔ u.ticks < v.ticks) ∧
          (t.ticks = s.ticks →
            (v.fault.map fun f => f.kind) = t.fault.map fun f => f.kind)

/-- HALT is the only instruction that writes a `running` flag (10_state.md R32). -/
def Obligations.OnlyHaltWritesRunning : Prop :=
  ∀ (i : Instr) (s t : State),
    exec i s = .next t → (∀ arg, i ≠ .halt arg) →
      (t.robots.map fun r => r.running) = s.robots.map fun r => r.running

/-- A halted robot keeps every register for the rest of the run (60_exceptions.md R242, R243, R253). -/
def Obligations.HaltedRobotsStayAsTheyAre : Prop :=
  ∀ (s t : State) (k : Nat) (r : Robot),
    s.robots[k]? = some r → r.running = false → step s = .next t → t.robots[k]? = some r

/-- Only WRITE changes the heap (20_memory.md R52). -/
def Obligations.OnlyWriteChangesTheHeap : Prop :=
  ∀ (i : Instr) (s t : State), exec i s = .next t → i ≠ .write → t.heap = s.heap

/-- After a load, every heap byte is what the load left there, or 0 or 1, however long the run
(43_bit_io.md R157). -/
def Obligations.RunsLeaveInitializersOrBits : Prop :=
  ∀ (s t : State) (image : List Byte) (n a : Nat),
    s.params.valid → hostRun n (s.load image) = .next t →
      t.heap.read a = (s.load image).heap.read a ∨ t.heap.read a = 0 ∨ t.heap.read a = 1

/-! Reset and load -/

/-- The load checks, in their order, each with its kind; an image that passes them all is run
(70_reset_and_hazards.md R271, R275, R280). -/
def Obligations.LoadChecksRunInOrder : Prop :=
  ∀ (s : State) (image : List Byte),
    if 1024 < image.length then LoadFails s image .badInput
    else if image.length < 12 then LoadFails s image .badInput
    else if image.take 4 ≠ s.params.magic.toList ∨
        (image.drop 4).take 2 ≠ s.params.version.toList then LoadFails s image .badInput
    else if 16 < byteAt image 10 then LoadFails s image .notSupported
    else if 4096 < headerMemSize image then LoadFails s image .notSupported
    else if image.length < 11 + byteAt image 10 then LoadFails s image .badInput
    else (¬RecordsFit image → LoadFails s image .badInput) ∧
      (RecordsFit image → (s.load image).sched = .running)

/-- A load keeps nothing of the state before it but the parameters, and the count of loads that indexes
the free values of a failed load (70_reset_and_hazards.md R270, log entry 8). -/
def Obligations.LoadDiscardsThePreviousState : Prop :=
  ∀ (s u : State) (image : List Byte),
    s.params = u.params → s.loads = u.loads → s.load image = u.load image

/-- What a load that succeeds leaves, in every element but the heap and the unspecified stack cells
(70_reset_and_hazards.md R272, R273, R277, R278, 10_state.md R28). -/
def Obligations.LoadSetsAllButHeapAndStackCells : Prop :=
  ∀ (s : State) (image : List Byte), (s.load image).sched = .running →
    let t := s.load image
    (∀ a, t.code.read a = image.getD a 0) ∧ t.len = image.length ∧
      t.memSize = headerMemSize image ∧ t.memStride = image.getD 8 0 ∧
      t.dataSegOffset = image.getD 9 0 ∧ t.robotCount = byteAt image 10 ∧
      t.entry.length = byteAt image 10 ∧
      (∀ i, i < byteAt image 10 → t.entry[i]? = some (image.getD (11 + i) 0)) ∧
      t.codeSize = (byteAt image 9 : Int) - 11 - byteAt image 11 ∧
      t.robots.length = byteAt image 10 ∧
      (∀ i r, t.robots[i]? = some r →
        r.running = true ∧ r.pc = byteAt image (11 + i) ∧ r.sp = 0 ∧ r.stride = image.getD 8 0) ∧
      t.next = 0 ∧ t.haltedInPass = [] ∧ t.ticks = 0 ∧ t.fault = none ∧ t.notices = []

/-- After a load each heap byte holds the value of the last record with its address, and 0 where there
is none (70_reset_and_hazards.md R274, R275, R276). -/
def Obligations.HeapHoldsTheLastRecords : Prop :=
  ∀ (s : State) (image : List Byte), (s.load image).sched = .running →
    (∀ n, recordAt image n < image.length →
      (∀ m, n < m → recordAt image m < image.length → recordAddr image m ≠ recordAddr image n) →
        (s.load image).heap.read (recordAddr image n) = recordValue image n) ∧
    (∀ a, (∀ n, recordAt image n < image.length → recordAddr image n ≠ a) →
      (s.load image).heap.read a = 0)

/-- A run with no robots: the first step ends an empty pass and the run, with no tick and no notice
(60_exceptions.md R245). -/
def Obligations.AnEmptyRunIsDoneAtOnce : Prop :=
  ∀ (s : State) (image : List Byte),
    (s.load image).sched = .running → byteAt image 10 = 0 →
      ∃ t, step (s.load image) = .next t ∧ t.sched = .done ∧ t.ticks = 0 ∧ t.notices = []

/-- The numeric codes of the fault kinds (60_exceptions.md R221). -/
def Obligations.FaultKindsHaveTheirCodes : Prop :=
  FaultKind.invalidArgument.code = 1 ∧ FaultKind.badInput.code = 2 ∧
    FaultKind.notSupported.code = 3 ∧ FaultKind.notRunning.code = 4 ∧
    FaultKind.runtimeStackUnderflow.code = 5 ∧ FaultKind.runtimeDivisionByZero.code = 6 ∧
    FaultKind.outOfBounds.code = 7 ∧ ∀ s : State, s.faultCode = 0 ↔ s.fault = none

/-! NotRunning, and the constraints on a build -/

/-- NotRunning is raised by a tick applied to a robot of the table whose `running` is false, by no
other tick, by no instruction and by no step; its code is kept (60_exceptions.md R223,
40_execution_cycle.md R111). -/
def Obligations.OnlyATickOfAHaltedRobotRaisesNotRunning : Prop :=
  (∀ (s : State) (j : Nat),
    tick j s = .fault .notRunning ↔ ∃ r, s.robots[j]? = some r ∧ r.running = false) ∧
  (∀ (i : Instr) (s : State), exec i s ≠ .fault .notRunning) ∧
  (∀ s : State, step s ≠ .fault .notRunning) ∧ FaultKind.notRunning.code = 4

/-- The default parameters, and that they meet the constraints on a build for every image that loads
(00_scope.md R9, 92_eei_decisions.md D1, D4). -/
def Obligations.DefaultParametersAdmitEveryImage : Prop :=
  Config.defaultParams.cellBits = 32 ∧ Config.defaultParams.stackCap = 4096 ∧
    Config.defaultParams.bitReadMode = .lsb ∧ Config.defaultParams.unknownOpPolicy = .fault ∧
    Config.defaultParams.valid ∧
    ∀ (s : State) (image : List Byte), s.params = Config.defaultParams →
      (s.load image).sched = .running → s.params.admits (headerMemSize image)
end

