-- ==== Sys2Proof/Laws/Cells.lean ====
section
/-!
SUPPORT. Laws of cell arithmetic: wrap-around, the bits of a cell, the remainder.
-/

namespace Sys2Proof.Laws

open Sys2Proof.Machine Sys2Proof.Safety

theorem wrap_inRange {w : Nat} (hw : 0 < w) (n : Int) : InRange w (wrap w n) := by
  have hpos : 0 < 2 ^ w := Nat.two_pow_pos w
  have e : (2 ^ w : Nat) = 2 * 2 ^ (w - 1) := by
    obtain ⟨k, rfl⟩ := Nat.exists_eq_succ_of_ne_zero hw.ne'
    simp [Nat.pow_succ, Nat.mul_comm]
  have h1 := Int.le_bmod (x := n) hpos
  have h2 := Int.bmod_lt (x := n) hpos
  unfold wrap InRange
  have ec : ((2 ^ w : Nat) : Int) = 2 * 2 ^ (w - 1) := by rw [e]; push_cast; ring
  rw [ec] at h1 h2
  generalize (2 : Int) ^ (w - 1) = p at *
  omega

/-- `wrap` is the `wrap_W` of the spec. -/
theorem wrap_isWrap {w : Nat} (hw : 0 < w) (n : Int) : IsWrap w n (wrap w n) := by
  refine ⟨wrap_inRange hw n, ?_⟩
  have h := Int.bmod_emod (x := n) (m := 2 ^ w)
  have : ((2 ^ w : Nat) : Int) ∣ wrap w n - n :=
    Int.dvd_of_emod_eq_zero (Int.emod_eq_emod_iff_emod_sub_eq_zero.mp h)
  simpa using this

/-- A cell's range is that of a signed bit vector of its width. -/
theorem toInt_inRange {w : Nat} (hw : 0 < w) (v : BitVec w) : InRange w v.toInt := by
  obtain ⟨k, rfl⟩ := Nat.exists_eq_succ_of_ne_zero hw.ne'
  have h1 := BitVec.le_toInt v
  have h2 := BitVec.toInt_lt (x := v)
  exact ⟨by simpa using h1, by simpa using h2⟩

/-- A value in the range of a cell is its own representation read back. -/
theorem toInt_ofInt_of_inRange {w : Nat} (hw : 0 < w) {v : Int} (h : InRange w v) :
    (BitVec.ofInt w v).toInt = v := by
  obtain ⟨k, rfl⟩ := Nat.exists_eq_succ_of_ne_zero hw.ne'
  obtain ⟨h1, h2⟩ := h
  simp only [Nat.succ_eq_add_one, Nat.add_sub_cancel] at h1 h2
  rw [BitVec.toInt_ofInt]
  have e : ((2 ^ (k + 1) : Nat) : Int) = 2 * 2 ^ k := by push_cast; ring
  apply Int.bmod_eq_of_le <;> rw [e] <;> omega

/-- `wrap` leaves a value in the range of a cell as it is. -/
theorem wrap_of_inRange {w : Nat} (hw : 0 < w) {v : Int} (h : InRange w v) : wrap w v = v := by
  have := toInt_ofInt_of_inRange hw h
  rwa [BitVec.toInt_ofInt] at this

/-- A bit of a cell's representation. -/
theorem getLsbD_ofInt_cell {w : Nat} (v : Int) {n : Nat} (hn : n < w) :
    (BitVec.ofInt w v).getLsbD n = decide (cellBit v n = 1) := by
  have hpos : 0 ≤ v % (2 ^ w : Nat) := Int.emod_nonneg _ (by positivity)
  have hbit : ((((v % (2 ^ w : Nat)).toNat >>> n) % 2 : Nat) : Int) = v / 2 ^ n % 2 := by
    rw [Nat.shiftRight_eq_div_pow]
    push_cast
    rw [Int.toNat_of_nonneg (by exact_mod_cast hpos)]
    obtain ⟨k, rfl⟩ : ∃ k, w = n + (k + 1) := ⟨w - n - 1, by omega⟩
    have : v % (2 : Int) ^ (n + (k + 1)) =
        v + 2 ^ n * (-(2 * (2 ^ k * (v / 2 ^ (n + (k + 1)))))) := by
      rw [Int.emod_def]; ring
    rw [this, Int.add_mul_ediv_left _ _ (by positivity)]
    omega
  rw [BitVec.getLsbD, BitVec.toNat_ofInt, Nat.testBit, Nat.and_comm, Nat.and_one_is_mod]
  unfold cellBit
  rcases Nat.mod_two_eq_zero_or_one ((v % (2 ^ w : Nat)).toNat >>> n) with h | h <;>
    rw [h] at hbit ⊢ <;> simp <;> omega

/-- A bit of the cell a bit vector is read as. -/
theorem cellBit_toInt {w : Nat} (v : BitVec w) {n : Nat} (hn : n < w) :
    cellBit v.toInt n = 1 ↔ v.getLsbD n = true := by
  have := getLsbD_ofInt_cell v.toInt hn
  rw [BitVec.ofInt_toInt] at this
  simp [this]

theorem cellBit_zero_or_one (v : Int) (n : Nat) : cellBit v n = 0 ∨ cellBit v n = 1 :=
  Int.emod_two_eq_zero_or_one _

/-- The complement of a cell in range is `-a - 1`. -/
theorem notCell_of_inRange {w : Nat} (hw : 0 < w) {a : Int} (h : InRange w a) :
    notCell w a = -a - 1 := by
  have hr : InRange w (-a - 1) := by
    obtain ⟨h1, h2⟩ := h
    constructor <;> linarith
  rw [← toInt_ofInt_of_inRange hw hr]
  unfold notCell
  congr 1
  apply BitVec.eq_of_getLsbD_eq
  intro n hn
  rw [BitVec.getLsbD_not, getLsbD_ofInt_cell _ hn, getLsbD_ofInt_cell _ hn]
  have e : (-a - 1) / 2 ^ n = -(a / 2 ^ n) - 1 := by
    have hp : (0 : Int) < 2 ^ n := by positivity
    have h1 := Int.mul_ediv_add_emod a (2 ^ n)
    have h2 := Int.emod_nonneg a hp.ne'
    have h3 := Int.emod_lt_of_pos a hp
    refine le_antisymm (Int.lt_add_one_iff.mp (Int.ediv_lt_of_lt_mul hp ?_))
      (Int.le_ediv_of_mul_le hp ?_) <;> nlinarith
  unfold cellBit
  rw [e]
  simp only [hn, decide_true, Bool.true_and]
  rw [← decide_not]
  congr 1
  apply propext
  omega

/-- What the quotient rounded toward zero leaves: smaller than the divisor, no larger than the
dividend, of the dividend's sign. -/
theorem trem_facts (b : Int) {a : Int} (ha : a ≠ 0) :
    |b - a * Int.tdiv b a| < |a| ∧ |b - a * Int.tdiv b a| ≤ |b| ∧
      (0 ≤ b → 0 ≤ b - a * Int.tdiv b a) ∧ (b ≤ 0 → b - a * Int.tdiv b a ≤ 0) := by
  have e : b - a * Int.tdiv b a = Int.tmod b a := by
    have := Int.mul_tdiv_add_tmod b a; linarith
  rw [e]
  refine ⟨?_, ?_, fun h => Int.tmod_nonneg a h, fun h => ?_⟩
  · rw [Int.abs_eq_natAbs, Int.abs_eq_natAbs, Int.natAbs_tmod]
    exact_mod_cast Nat.mod_lt _ (Int.natAbs_pos.mpr ha)
  · rw [Int.abs_eq_natAbs, Int.abs_eq_natAbs, Int.natAbs_tmod]
    exact_mod_cast Nat.mod_le _ _
  · have := Int.tmod_nonneg (a := -b) a (by omega)
    rw [Int.neg_tmod] at this
    omega

end Sys2Proof.Laws
end

