-- ==== Sys2Proof/Laws/State.lean ====
section
/-!
SUPPORT. One lemma per field per update of the state and of a robot, true by rfl.
-/

namespace Sys2Proof.Laws

open Sys2Proof.Machine

section completeTick
variable (s : State) (j : Nat) (r : Robot) (heap : Memory)
@[simp] theorem completeTick_code : (s.completeTick j r heap).code = s.code := rfl
@[simp] theorem completeTick_len : (s.completeTick j r heap).len = s.len := rfl
@[simp] theorem completeTick_memSize : (s.completeTick j r heap).memSize = s.memSize := rfl
@[simp] theorem completeTick_memStride : (s.completeTick j r heap).memStride = s.memStride := rfl
@[simp] theorem completeTick_dataSegOffset : (s.completeTick j r heap).dataSegOffset = s.dataSegOffset := rfl
@[simp] theorem completeTick_robotCount : (s.completeTick j r heap).robotCount = s.robotCount := rfl
@[simp] theorem completeTick_entry : (s.completeTick j r heap).entry = s.entry := rfl
@[simp] theorem completeTick_codeSize : (s.completeTick j r heap).codeSize = s.codeSize := rfl
@[simp] theorem completeTick_heap : (s.completeTick j r heap).heap = heap := rfl
@[simp] theorem completeTick_robots : (s.completeTick j r heap).robots = s.robots.set j r := rfl
@[simp] theorem completeTick_sched : (s.completeTick j r heap).sched = s.sched := rfl
@[simp] theorem completeTick_next : (s.completeTick j r heap).next = j + 1 := rfl
@[simp] theorem completeTick_haltedInPass : (s.completeTick j r heap).haltedInPass = 
    (if r.running then s.haltedInPass else setInsert j s.haltedInPass) := rfl
@[simp] theorem completeTick_ticks : (s.completeTick j r heap).ticks = s.ticks + 1 := rfl
@[simp] theorem completeTick_fault : (s.completeTick j r heap).fault = s.fault := rfl
@[simp] theorem completeTick_notices : (s.completeTick j r heap).notices = s.notices := rfl
@[simp] theorem completeTick_params : (s.completeTick j r heap).params = s.params := rfl
@[simp] theorem completeTick_loads : (s.completeTick j r heap).loads = s.loads := rfl
end completeTick

section takeFault
variable (s : State) (j : Nat) (r : Robot) (k : FaultKind) (heap : Memory)
@[simp] theorem takeFault_code : (s.takeFault j r k heap).code = s.code := rfl
@[simp] theorem takeFault_len : (s.takeFault j r k heap).len = s.len := rfl
@[simp] theorem takeFault_memSize : (s.takeFault j r k heap).memSize = s.memSize := rfl
@[simp] theorem takeFault_memStride : (s.takeFault j r k heap).memStride = s.memStride := rfl
@[simp] theorem takeFault_dataSegOffset : (s.takeFault j r k heap).dataSegOffset = s.dataSegOffset := rfl
@[simp] theorem takeFault_robotCount : (s.takeFault j r k heap).robotCount = s.robotCount := rfl
@[simp] theorem takeFault_entry : (s.takeFault j r k heap).entry = s.entry := rfl
@[simp] theorem takeFault_codeSize : (s.takeFault j r k heap).codeSize = s.codeSize := rfl
@[simp] theorem takeFault_heap : (s.takeFault j r k heap).heap = heap := rfl
@[simp] theorem takeFault_robots : (s.takeFault j r k heap).robots = s.robots := rfl
@[simp] theorem takeFault_sched : (s.takeFault j r k heap).sched = .faulted := rfl
@[simp] theorem takeFault_next : (s.takeFault j r k heap).next = s.next := rfl
@[simp] theorem takeFault_haltedInPass : (s.takeFault j r k heap).haltedInPass = s.haltedInPass := rfl
@[simp] theorem takeFault_ticks : (s.takeFault j r k heap).ticks = s.ticks := rfl
@[simp] theorem takeFault_fault : (s.takeFault j r k heap).fault = 
    some { kind := k, robot := some j, pc := some r.pc, sp := some r.sp } := rfl
@[simp] theorem takeFault_notices : (s.takeFault j r k heap).notices = s.notices := rfl
@[simp] theorem takeFault_params : (s.takeFault j r k heap).params = s.params := rfl
@[simp] theorem takeFault_loads : (s.takeFault j r k heap).loads = s.loads := rfl
end takeFault

section setCell
variable (r : Robot) (k : Nat) (v : Cell)
@[simp] theorem setCell_running : (r.setCell k v).running = r.running := rfl
@[simp] theorem setCell_pc : (r.setCell k v).pc = r.pc := rfl
@[simp] theorem setCell_sp : (r.setCell k v).sp = r.sp := rfl
@[simp] theorem setCell_stride : (r.setCell k v).stride = r.stride := rfl
@[simp] theorem setCell_stack : (r.setCell k v).stack = Store.write 0 r.stack k v := rfl
end setCell

section moved
variable (r : Robot) (sp pc : Nat)
@[simp] theorem moved_running : (r.moved sp pc).running = r.running := rfl
@[simp] theorem moved_pc : (r.moved sp pc).pc = pc := rfl
@[simp] theorem moved_sp : (r.moved sp pc).sp = sp := rfl
@[simp] theorem moved_stack : (r.moved sp pc).stack = r.stack := rfl
@[simp] theorem moved_stride : (r.moved sp pc).stride = r.stride := rfl
end moved

section storeCode
variable (s : State) (a : Nat) (bytes : List Byte)
@[simp] theorem storeCode_memSize : (s.storeCode a bytes).memSize = s.memSize := rfl
@[simp] theorem storeCode_memStride : (s.storeCode a bytes).memStride = s.memStride := rfl
@[simp] theorem storeCode_dataSegOffset : (s.storeCode a bytes).dataSegOffset = s.dataSegOffset := rfl
@[simp] theorem storeCode_robotCount : (s.storeCode a bytes).robotCount = s.robotCount := rfl
@[simp] theorem storeCode_entry : (s.storeCode a bytes).entry = s.entry := rfl
@[simp] theorem storeCode_codeSize : (s.storeCode a bytes).codeSize = s.codeSize := rfl
@[simp] theorem storeCode_heap : (s.storeCode a bytes).heap = s.heap := rfl
@[simp] theorem storeCode_robots : (s.storeCode a bytes).robots = s.robots := rfl
@[simp] theorem storeCode_sched : (s.storeCode a bytes).sched = s.sched := rfl
@[simp] theorem storeCode_next : (s.storeCode a bytes).next = s.next := rfl
@[simp] theorem storeCode_haltedInPass : (s.storeCode a bytes).haltedInPass = s.haltedInPass := rfl
@[simp] theorem storeCode_ticks : (s.storeCode a bytes).ticks = s.ticks := rfl
@[simp] theorem storeCode_fault : (s.storeCode a bytes).fault = s.fault := rfl
@[simp] theorem storeCode_notices : (s.storeCode a bytes).notices = s.notices := rfl
@[simp] theorem storeCode_params : (s.storeCode a bytes).params = s.params := rfl
@[simp] theorem storeCode_loads : (s.storeCode a bytes).loads = s.loads := rfl
end storeCode

end Sys2Proof.Laws
end

