-- ==== Sys2Proof/Laws/Store.lean ====
section
/-!
SUPPORT. Laws of the sparse store: a read after a write, and the canonical form.
-/

namespace Sys2Proof.Laws

open Sys2Proof.Machine

variable {α : Type}

theorem store_read_erase (d : α) (m : List (Nat × α)) (a b : Nat) :
    Store.read d (Store.erase m a) b = if a = b then d else Store.read d m b := by
  induction m with
  | nil => simp [Store.erase, Store.read]
  | cons c rest ih =>
    obtain ⟨k, v⟩ := c
    simp only [Store.erase] at ih ⊢
    by_cases hk : k = a
    · subst hk
      simp only [List.filter_cons, bne_self_eq_false, Bool.false_eq_true, if_false, ih, Store.read]
      split <;> simp_all
    · have : (k != a) = true := by simpa using hk
      simp only [List.filter_cons, this, if_true, Store.read, ih]
      by_cases hb : k = b
      · simp [hb, show a ≠ b from fun h => hk (hb.trans h.symm)]
      · simp [hb]

theorem store_read_insert (d : α) (a : Nat) (v : α) (m : List (Nat × α)) (b : Nat)
    (hm : ∀ c ∈ m, c.1 ≠ a) :
    Store.read d (Store.insert a v m) b = if a = b then v else Store.read d m b := by
  induction m with
  | nil => simp [Store.insert, Store.read]
  | cons c rest ih =>
    obtain ⟨k, u⟩ := c
    have hk : k ≠ a := hm (k, u) (by simp)
    have ih := ih fun c hc => hm c (by simp [hc])
    simp only [Store.insert]
    split
    · simp [Store.read]
    · simp only [Store.read, ih]
      by_cases hb : k = b
      · simp [hb, show a ≠ b from fun h => hk (hb.trans h.symm)]
      · simp [hb]

theorem store_mem_erase {m : List (Nat × α)} {a : Nat} {c : Nat × α} :
    c ∈ Store.erase m a ↔ c ∈ m ∧ c.1 ≠ a := by
  simp [Store.erase]

theorem store_mem_insert {a : Nat} {v : α} {m : List (Nat × α)} {c : Nat × α} :
    c ∈ Store.insert a v m ↔ c = (a, v) ∨ c ∈ m := by
  induction m with
  | nil => simp [Store.insert]
  | cons e rest ih =>
    obtain ⟨k, u⟩ := e
    simp only [Store.insert]
    split
    · simp
    · simp [ih, or_left_comm]

variable [DecidableEq α]

/-- A read after a write, of the written address and of every other, in any store. -/
@[simp] theorem store_read_write (d : α) (m : List (Nat × α)) (a : Nat) (v : α) (b : Nat) :
    Store.read d (Store.write d m a v) b = if a = b then v else Store.read d m b := by
  unfold Store.write
  split
  · rw [store_read_erase]; simp_all
  · rw [store_read_insert _ _ _ _ _ fun c hc => (store_mem_erase.mp hc).2, store_read_erase]
    split <;> simp_all

theorem store_mem_write {d : α} {m : List (Nat × α)} {a : Nat} {v : α} {c : Nat × α}
    (h : c ∈ Store.write d m a v) : c = (a, v) ∨ c ∈ m := by
  unfold Store.write at h
  split at h
  · exact .inr (store_mem_erase.mp h).1
  · exact (store_mem_insert.mp h).imp_right fun h => (store_mem_erase.mp h).1

/-- The canonical form as a statement: addresses strictly rising, no default entry. -/
theorem store_wf_iff {d : α} {m : List (Nat × α)} :
    Store.wf d m = true ↔ m.Pairwise (fun c e => c.1 < e.1) ∧ ∀ c ∈ m, c.2 ≠ d := by
  induction m with
  | nil => simp [Store.wf]
  | cons c rest ih =>
    obtain ⟨k, v⟩ := c
    simp only [Store.wf, Bool.and_eq_true, decide_eq_true_eq, List.all_eq_true, ih,
      List.pairwise_cons, List.mem_cons, forall_eq_or_imp]
    tauto

omit [DecidableEq α] in
theorem store_insert_pairwise {a : Nat} {v : α} {m : List (Nat × α)}
    (hm : m.Pairwise (fun c e => c.1 < e.1)) (ha : ∀ c ∈ m, c.1 ≠ a) :
    (Store.insert a v m).Pairwise (fun c e => c.1 < e.1) := by
  induction m with
  | nil => simp [Store.insert]
  | cons e rest ih =>
    obtain ⟨k, u⟩ := e
    rw [List.pairwise_cons] at hm
    have hk : k ≠ a := ha (k, u) (by simp)
    simp only [Store.insert]
    split
    · rename_i hlt
      refine List.pairwise_cons.mpr ⟨fun c hc => ?_, List.pairwise_cons.mpr hm⟩
      rcases List.mem_cons.mp hc with rfl | hc
      · exact hlt
      · exact lt_trans hlt (hm.1 c hc)
    · rename_i hge
      refine List.pairwise_cons.mpr ⟨fun c hc => ?_, ih hm.2 fun c hc => ha c (by simp [hc])⟩
      rcases store_mem_insert.mp hc with rfl | hc
      · simp only; omega
      · exact hm.1 c hc

/-- A write keeps the canonical form. -/
theorem store_write_wf {d : α} {m : List (Nat × α)} {a : Nat} {v : α} (h : Store.wf d m = true) :
    Store.wf d (Store.write d m a v) = true := by
  rw [store_wf_iff] at h ⊢
  have he : (Store.erase m a).Pairwise (fun c e => c.1 < e.1) := h.1.filter _
  unfold Store.write
  split
  · exact ⟨he, fun c hc => h.2 c (store_mem_erase.mp hc).1⟩
  · rename_i hv
    refine ⟨store_insert_pairwise he fun c hc => (store_mem_erase.mp hc).2, fun c hc => ?_⟩
    rcases store_mem_insert.mp hc with rfl | hc
    · exact hv
    · exact h.2 c (store_mem_erase.mp hc).1

theorem store_writeAll_wf {d : α} (l m : List (Nat × α)) (h : Store.wf d m = true) :
    Store.wf d (Store.writeAll d m l) = true := by
  induction l generalizing m with
  | nil => simpa [Store.writeAll] using h
  | cons c rest ih => exact ih _ (store_write_wf h)

theorem store_mem_writeAll {d : α} (l m : List (Nat × α)) {c : Nat × α}
    (h : c ∈ Store.writeAll d m l) : c ∈ l ∨ c ∈ m := by
  induction l generalizing m with
  | nil => exact .inr (by simpa [Store.writeAll] using h)
  | cons e rest ih =>
    rcases ih (Store.write d m e.1 e.2) h with h | h
    · exact .inl (List.mem_cons_of_mem _ h)
    · rcases store_mem_write h with rfl | h
      · exact .inl (by simp)
      · exact .inr h

/-- A read after a list of writes: the last pair with the address, else what the store held. -/
theorem store_read_writeAll (d : α) (l m : List (Nat × α)) (a : Nat) :
    Store.read d (Store.writeAll d m l) a =
      match l.reverse.find? (fun c => c.1 == a) with
      | some c => c.2
      | none => Store.read d m a := by
  induction l generalizing m with
  | nil => simp [Store.writeAll]
  | cons e rest ih =>
    have hstep : Store.writeAll d m (e :: rest) = Store.writeAll d (Store.write d m e.1 e.2) rest := rfl
    rw [hstep, ih, List.reverse_cons, List.find?_append]
    cases hf : rest.reverse.find? (fun c => c.1 == a) with
    | some c => simp
    | none =>
      by_cases he : e.1 = a <;> simp [he]

omit [DecidableEq α] in
/-- A store reads as unlisted below its first address. -/
theorem store_read_of_lt {d : α} {m : List (Nat × α)} {a : Nat} (h : ∀ c ∈ m, a < c.1) :
    Store.read d m a = d := by
  induction m with
  | nil => rfl
  | cons c rest ih =>
    have := h c (by simp)
    simp only [Store.read]
    rw [if_neg (by omega)]
    exact ih fun c hc => h c (by simp [hc])

/-- Canonical stores that read the same are the same data. -/
theorem store_ext {d : α} {m n : List (Nat × α)} (hm : Store.wf d m = true)
    (hn : Store.wf d n = true) (h : ∀ a, Store.read d m a = Store.read d n a) : m = n := by
  rw [store_wf_iff] at hm hn
  obtain ⟨hms, hmd⟩ := hm
  obtain ⟨hns, hnd⟩ := hn
  induction m generalizing n with
  | nil =>
    cases n with
    | nil => rfl
    | cons e rest =>
      have := h e.1
      simp only [Store.read, if_true] at this
      exact absurd this.symm (hnd e (by simp))
  | cons c rest ih =>
    cases n with
    | nil =>
      have := h c.1
      simp only [Store.read, if_true] at this
      exact absurd this (hmd c (by simp))
    | cons e rest' =>
      rw [List.pairwise_cons] at hms hns
      have hce : c.1 = e.1 := by
        rcases lt_trichotomy c.1 e.1 with hlt | heq | hgt
        · have h1 := h c.1
          rw [store_read_of_lt (m := e :: rest')] at h1
          · simp only [Store.read, if_true] at h1
            exact absurd h1 (hmd c (by simp))
          · intro x hx
            rcases List.mem_cons.mp hx with rfl | hx
            · exact hlt
            · exact lt_trans hlt (hns.1 x hx)
        · exact heq
        · have h1 := h e.1
          rw [store_read_of_lt (m := c :: rest)] at h1
          · simp only [Store.read, if_true] at h1
            exact absurd h1.symm (hnd e (by simp))
          · intro x hx
            rcases List.mem_cons.mp hx with rfl | hx
            · exact hgt
            · exact lt_trans hgt (hms.1 x hx)
      have hv : c.2 = e.2 := by
        have := h c.1
        simpa [Store.read, hce] using this
      have hrest : rest = rest' := by
        refine ih (fun a => ?_) hms.2 (fun x hx => hmd x (by simp [hx])) hns.2
          (fun x hx => hnd x (by simp [hx]))
        by_cases ha : c.1 = a
        · subst ha
          rw [store_read_of_lt hms.1, store_read_of_lt (by rw [hce]; exact hns.1)]
        · have := h a
          simpa [Store.read, ha, hce ▸ ha] using this
      rw [hrest, Prod.ext hce hv]

/-- A read of a memory after a write. -/
@[simp] theorem memory_read_write (m : Memory) (a : Nat) (v : Byte) (b : Nat) :
    (m.write a v).read b = if a = b then v else m.read b :=
  store_read_write 0 m a v b

/-- Every write keeps a memory's canonical form. -/
theorem memory_write_wf {m : Memory} {a : Nat} {v : Byte} (h : m.wf = true) :
    (m.write a v).wf = true :=
  store_write_wf h

theorem memory_mem_write {m : Memory} {a : Nat} {v : Byte} {c : Host.Cell}
    (h : c ∈ m.write a v) : c = (a, v) ∨ c ∈ m :=
  store_mem_write h

/-- A memory filled from a list of bytes is canonical. -/
theorem memory_ofBytes_wf (bs : List Byte) : (Memory.ofBytes bs).wf = true :=
  store_writeAll_wf _ _ rfl

theorem memory_mem_ofBytes {bs : List Byte} {c : Host.Cell} (h : c ∈ Memory.ofBytes bs) :
    c.1 < bs.length := by
  rcases store_mem_writeAll _ _ h with h | h
  · simp only [List.mem_map, List.mem_zipIdx_iff_getElem?, Prod.exists] at h
    obtain ⟨b, i, hb, rfl⟩ := h
    exact (List.getElem?_eq_some_iff.mp hb).1
  · simp at h

/-- The stores of the power-up state are canonical. -/
theorem reset_stores_wf : State.reset.code.wf = true ∧ State.reset.heap.wf = true := ⟨rfl, rfl⟩

end Sys2Proof.Laws
end

