-- ==== Sys2Proof/Laws/Ops.lean ====
section
/-!
SUPPORT. For each shared operation, once, everything it can do.
-/

namespace Sys2Proof.Laws

open Sys2Proof.Machine Sys2Proof.Safety

/-! Cells and registers -/

@[simp] theorem cell_setCell (r : Robot) (k : Nat) (v : Cell) (i : Nat) :
    (r.setCell k v).cell i = if k = i then v else r.cell i :=
  store_read_write 0 r.stack k v i

/-- Writing a cell keeps a stack's canonical form. -/
theorem setCell_wf {r : Robot} {k : Nat} {v : Cell} (h : Store.wf (0 : Cell) r.stack = true) :
    Store.wf (0 : Cell) (r.setCell k v).stack = true :=
  store_write_wf h

@[simp] theorem cell_moved (r : Robot) (sp pc i : Nat) : (r.moved sp pc).cell i = r.cell i := rfl

/-! Code and heap access -/

theorem codeRead_of_lt {s : State} {a : Nat} (h : a < s.len) :
    s.codeRead a = some (s.code.read a) := if_pos h

theorem codeRead_of_le {s : State} {a : Nat} (h : s.len ≤ a) : s.codeRead a = none :=
  if_neg (by omega)

theorem codeRead_eq_some {s : State} {a : Nat} {b : Byte} :
    s.codeRead a = some b ↔ a < s.len ∧ s.code.read a = b := by
  unfold State.codeRead; split <;> simp_all

theorem codeRead_eq_none {s : State} {a : Nat} : s.codeRead a = none ↔ s.len ≤ a := by
  unfold State.codeRead; split <;> simp_all

theorem inHeap_iff {s : State} {a : Int} : s.inHeap a = true ↔ 0 ≤ a ∧ a < s.memSize := by
  simp [State.inHeap]

theorem heapRead_eq_some {s : State} {a : Int} {b : Byte} :
    s.heapRead a = some b ↔ (0 ≤ a ∧ a < s.memSize) ∧ s.heap.read a.toNat = b := by
  unfold State.heapRead
  rw [← inHeap_iff]
  split <;> simp_all

theorem heapRead_eq_none {s : State} {a : Int} :
    s.heapRead a = none ↔ ¬(0 ≤ a ∧ a < s.memSize) := by
  unfold State.heapRead
  rw [← inHeap_iff]
  split <;> simp_all

/-! The set of halted robots -/

@[simp] theorem mem_setInsert {j k : Nat} {l : List Nat} : k ∈ setInsert j l ↔ k = j ∨ k ∈ l := by
  induction l with
  | nil => simp [setInsert]
  | cons a rest ih =>
    simp only [setInsert]
    split
    · simp
    · split
      · simp_all
      · simp [ih, or_left_comm]

theorem setInsert_rising {j : Nat} {l : List Nat} (h : l.Pairwise (· < ·)) :
    (setInsert j l).Pairwise (· < ·) := by
  induction l with
  | nil => simp [setInsert]
  | cons a rest ih =>
    rw [List.pairwise_cons] at h
    simp only [setInsert]
    split
    · rename_i hlt
      refine List.pairwise_cons.mpr ⟨fun b hb => ?_, List.pairwise_cons.mpr h⟩
      rcases List.mem_cons.mp hb with rfl | hb
      · exact hlt
      · exact lt_trans hlt (h.1 b hb)
    · split
      · exact List.pairwise_cons.mpr h
      · refine List.pairwise_cons.mpr ⟨fun b hb => ?_, ih h.2⟩
        rcases mem_setInsert.mp hb with rfl | hb
        · omega
        · exact h.1 b hb

/-! The robot that is due -/

theorem find_drop_zipIdx (l : List Robot) (n j : Nat) (r : Robot) :
    (l.zipIdx.drop n).find? (fun p => p.1.running) = some (r, j) ↔
      l[j]? = some r ∧ r.running = true ∧ n ≤ j ∧
        ∀ k, k < j → n ≤ k → (l[k]?.map fun q => q.running) ≠ some true := by
  rw [List.find?_eq_some_iff_getElem]
  constructor
  · rintro ⟨hr, i, hi, hget, hbefore⟩
    have hlen : i < l.length - n := by simpa using hi
    rw [List.getElem_drop, List.getElem_zipIdx] at hget
    simp only [Prod.mk.injEq] at hget
    obtain ⟨hget, rfl⟩ := hget
    refine ⟨?_, hr, by omega, fun k hk hnk => ?_⟩
    · simp [← hget]
    · have := hbefore (k - n) (by omega)
      rw [List.getElem_drop, List.getElem_zipIdx] at this
      have hkl : k < l.length := by omega
      have e : n + (k - n) = k := by omega
      simp only [e] at this
      simpa [List.getElem?_eq_getElem hkl] using this
  · rintro ⟨hj, hr, hn, hbefore⟩
    obtain ⟨hlt, hget⟩ := List.getElem?_eq_some_iff.mp hj
    refine ⟨hr, j - n, by simp; omega, ?_, fun i hi => ?_⟩
    · rw [List.getElem_drop, List.getElem_zipIdx]
      simp [show n + (j - n) = j by omega, hget]
    · rw [List.getElem_drop, List.getElem_zipIdx]
      have := hbefore (n + i) (by omega) (by omega)
      rw [List.getElem?_eq_getElem (show n + i < l.length by omega)] at this
      simpa using this

/-- The scheduler's choice is the robot that is due. -/
theorem current_eq_some {s : State} {j : Nat} {r : Robot} : s.current = some (j, r) ↔ Due s j r := by
  unfold State.current Due
  rw [← find_drop_zipIdx, Option.map_eq_some_iff]
  constructor
  · rintro ⟨⟨r', j'⟩, h, he⟩
    simp only [Prod.mk.injEq] at he
    obtain ⟨rfl, rfl⟩ := he
    exact h
  · intro h
    exact ⟨(r, j), h, rfl⟩

/-- No robot is due exactly when none from `next` on is running. -/
theorem current_eq_none {s : State} :
    s.current = none ↔
      ∀ k, s.next ≤ k → (s.robots[k]?.map fun q => q.running) ≠ some true := by
  unfold State.current
  rw [Option.map_eq_none_iff, List.find?_eq_none]
  constructor
  · intro h k hk
    by_cases hlt : k < s.robots.length
    · have := h (s.robots[k], k) ?_
      · rw [List.getElem?_eq_getElem hlt]; simpa using this
      · rw [List.mem_iff_getElem]
        refine ⟨k - s.next, by simp; omega, ?_⟩
        rw [List.getElem_drop, List.getElem_zipIdx]
        simp [show s.next + (k - s.next) = k by omega]
    · simp [List.getElem?_eq_none (Nat.le_of_not_lt hlt)]
  · rintro h ⟨r, k⟩ hmem
    rw [List.mem_iff_getElem] at hmem
    obtain ⟨i, hi, he⟩ := hmem
    rw [List.getElem_drop, List.getElem_zipIdx] at he
    simp only [Prod.mk.injEq, Nat.zero_add] at he
    have hlt : s.next + i < s.robots.length := by simp at hi; omega
    have := h (s.next + i) (by omega)
    rw [List.getElem?_eq_getElem hlt] at this
    rw [← he.1]
    simpa using this

theorem due_lt {s : State} {j : Nat} {r : Robot} (h : Due s j r) : j < s.robots.length :=
  (List.getElem?_eq_some_iff.mp h.1).1

theorem due_mem {s : State} {j : Nat} {r : Robot} (h : Due s j r) : r ∈ s.robots :=
  List.mem_of_getElem? h.1

/-- There is at most one robot due. -/
theorem due_unique {s : State} {j k : Nat} {r q : Robot} (h : Due s j r) (h' : Due s k q) :
    j = k ∧ r = q := by
  have := (current_eq_some.mpr h).symm.trans (current_eq_some.mpr h')
  simpa using this

/-! One tick -/

/-- Running an instruction body where a robot is due. -/
theorem runTick_of_due {s : State} {j : Nat} {r : Robot} (h : Due s j r) (body : Robot → TickResult) :
    s.runTick body =
      match body r with
      | .completed r' heap => .next (s.completeTick j r' heap)
      | .raised k heap => .next (s.takeFault j r k heap) := by
  have h := current_eq_some.mpr h
  cases hb : body r <;> simp only [State.runTick, h, hb]

theorem runTick_completed {s : State} {j : Nat} {r r' : Robot} {heap : Memory}
    {body : Robot → TickResult} (h : Due s j r) (hb : body r = .completed r' heap) :
    s.runTick body = .next (s.completeTick j r' heap) := by
  rw [runTick_of_due h, hb]

theorem runTick_raised {s : State} {j : Nat} {r : Robot} {k : FaultKind} {heap : Memory}
    {body : Robot → TickResult} (h : Due s j r) (hb : body r = .raised k heap) :
    s.runTick body = .next (s.takeFault j r k heap) := by
  rw [runTick_of_due h, hb]

/-- Everything a body's run can answer as a next state. -/
theorem runTick_cases {s t : State} {body : Robot → TickResult} (h : s.runTick body = .next t) :
    ∃ j r, Due s j r ∧
      ((∃ r' heap, body r = .completed r' heap ∧ t = s.completeTick j r' heap) ∨
        (∃ k heap, body r = .raised k heap ∧ t = s.takeFault j r k heap)) := by
  unfold State.runTick at h
  split at h
  · cases h
  · rename_i j r hc
    refine ⟨j, r, current_eq_some.mp hc, ?_⟩
    split at h
    · exact .inl ⟨_, _, ‹_›, by cases h; rfl⟩
    · exact .inr ⟨_, _, ‹_›, by cases h; rfl⟩

/-- A robot that keeps running leaves the set of halted robots as it is. -/
theorem completeTick_of_running {s : State} {j : Nat} {r : Robot} {heap : Memory}
    (h : r.running = true) :
    s.completeTick j r heap =
      { s with robots := s.robots.set j r, heap := heap, ticks := s.ticks + 1, next := j + 1 } := by
  simp [State.completeTick, h]

/-- Everything a binary operation can do. -/
theorem binaryTick_cases (f : Cell → Cell → Cell) (s : State) (r : Robot) :
    (r.sp < 2 ∧ binaryTick f s r = .raised .runtimeStackUnderflow s.heap) ∨
      (2 ≤ r.sp ∧
        binaryTick f s r =
          .completed
            ((r.setCell (r.sp - 2) (f (r.cell (r.sp - 2)) (r.cell (r.sp - 1)))).moved
              (r.sp - 1) (r.pc + 1))
            s.heap) := by
  unfold binaryTick
  split
  · exact .inl ⟨‹_›, rfl⟩
  · exact .inr ⟨by omega, rfl⟩

/-- Everything DIV and MOD can do. -/
theorem divideTick_cases (f : Cell → Cell → Cell) (s : State) (r : Robot) :
    (r.sp = 0 ∧ divideTick f s r = .raised .runtimeStackUnderflow s.heap) ∨
      (0 < r.sp ∧ r.cell (r.sp - 1) = 0 ∧
        divideTick f s r = .raised .runtimeDivisionByZero s.heap) ∨
      (r.sp = 1 ∧ r.cell (r.sp - 1) ≠ 0 ∧
        divideTick f s r = .raised .runtimeStackUnderflow s.heap) ∨
      (2 ≤ r.sp ∧ r.cell (r.sp - 1) ≠ 0 ∧
        divideTick f s r =
          .completed
            ((r.setCell (r.sp - 2) (f (r.cell (r.sp - 2)) (r.cell (r.sp - 1)))).moved
              (r.sp - 1) (r.pc + 1))
            s.heap) := by
  unfold divideTick
  split
  · exact .inl ⟨‹_›, rfl⟩
  · split
    · exact .inr (.inl ⟨by omega, ‹_›, rfl⟩)
    · rcases binaryTick_cases f s r with ⟨h, e⟩ | ⟨h, e⟩
      · exact .inr (.inr (.inl ⟨by omega, ‹_›, e⟩))
      · exact .inr (.inr (.inr ⟨h, ‹_›, e⟩))

/-- Everything a push can do. -/
theorem pushTick_cases (v : Cell) (n : Nat) (s : State) (r : Robot) :
    (s.params.stackCap < r.sp + 1 ∧ pushTick v n s r = .raised .outOfBounds s.heap) ∨
      (r.sp + 1 ≤ s.params.stackCap ∧
        pushTick v n s r =
          .completed ((r.setCell r.sp v).moved (r.sp + 1) (r.pc + n)) s.heap) := by
  unfold pushTick
  split
  · exact .inl ⟨‹_›, rfl⟩
  · exact .inr ⟨by omega, rfl⟩

/-! The bit-plotter's visits -/

/-- READ's visits succeed exactly when each is in range, with the bytes in the order visited. -/
theorem gatherVisits_eq_some {s : State} {off : Nat → Int} {l : List Nat} {bytes : List Byte} :
    gatherVisits s off l = some bytes ↔
      (∀ i ∈ l, 0 ≤ off i ∧ off i < s.memSize) ∧
        bytes = l.map fun i => s.heap.read (off i).toNat := by
  induction l generalizing bytes with
  | nil => simp [gatherVisits, eq_comm]
  | cons i rest ih =>
    simp only [gatherVisits, List.mem_cons, forall_eq_or_imp, List.map_cons]
    split
    · rename_i h
      rw [heapRead_eq_none] at h
      simp [h]
    · rename_i c h
      rw [heapRead_eq_some] at h
      simp only [Option.map_eq_some_iff, ih]
      constructor
      · rintro ⟨bs, ⟨hr, rfl⟩, rfl⟩
        exact ⟨⟨h.1, hr⟩, by rw [h.2]⟩
      · rintro ⟨⟨-, hr⟩, rfl⟩
        exact ⟨_, ⟨hr, rfl⟩, by rw [h.2]⟩

theorem gatherVisits_eq_none {s : State} {off : Nat → Int} {l : List Nat} :
    gatherVisits s off l = none ↔ ∃ i ∈ l, ¬(0 ≤ off i ∧ off i < s.memSize) := by
  constructor
  · intro h
    by_contra hc
    have := gatherVisits_eq_some (s := s) (off := off) (l := l)
      (bytes := l.map fun i => s.heap.read (off i).toNat) |>.mpr
      ⟨fun i hi => by_contra fun hn => hc ⟨i, hi, hn⟩, rfl⟩
    rw [h] at this
    cases this
  · rintro ⟨i, hi, hn⟩
    cases h : gatherVisits s off l with
    | none => rfl
    | some bytes => exact absurd ((gatherVisits_eq_some.mp h).1 i hi) hn

/-- The stores of visits that are all in range. -/
def drawnHeap (off : Nat → Int) (bit : Nat → Byte) (l : List Nat) (heap : Memory) : Memory :=
  l.foldl (fun m i => m.write (off i).toNat (bit i)) heap

/-- WRITE's visits: those before the first out of range are stored, no other. -/
theorem drawVisits_spec (s : State) (off : Nat → Int) (bit : Nat → Byte) (l : List Nat)
    (heap : Memory) :
    ((∀ i ∈ l, 0 ≤ off i ∧ off i < s.memSize) ∧
        drawVisits s off bit l heap = (drawnHeap off bit l heap, true)) ∨
      (∃ before i after, l = before ++ i :: after ∧
        (∀ k ∈ before, 0 ≤ off k ∧ off k < s.memSize) ∧
        ¬(0 ≤ off i ∧ off i < s.memSize) ∧
        drawVisits s off bit l heap = (drawnHeap off bit before heap, false)) := by
  induction l generalizing heap with
  | nil => exact .inl ⟨by simp, rfl⟩
  | cons i rest ih =>
    simp only [drawVisits]
    by_cases h : 0 ≤ off i ∧ off i < s.memSize
    · rw [if_pos (inHeap_iff.mpr h)]
      rcases ih (heap.write (off i).toNat (bit i)) with ⟨hr, e⟩ | ⟨b, k, a, rfl, hb, hk, e⟩
      · exact .inl ⟨by simpa [h] using hr, e⟩
      · exact .inr ⟨i :: b, k, a, rfl, by simpa [h] using hb, hk, e⟩
    · rw [if_neg fun hc => h (inHeap_iff.mp hc)]
      exact .inr ⟨[], i, rest, rfl, by simp, h, rfl⟩

/-- A byte after WRITE's stores: the last visit that hit it, else what was there. -/
theorem drawnHeap_read (off : Nat → Int) (bit : Nat → Byte) (l : List Nat) (heap : Memory) (a : Nat) :
    (drawnHeap off bit l heap).read a =
      match l.reverse.find? (fun i => (off i).toNat == a) with
      | some i => bit i
      | none => heap.read a := by
  induction l generalizing heap with
  | nil => simp [drawnHeap]
  | cons i rest ih =>
    have hstep : drawnHeap off bit (i :: rest) heap =
        drawnHeap off bit rest (heap.write (off i).toNat (bit i)) := rfl
    rw [hstep, ih, List.reverse_cons, List.find?_append]
    cases hf : rest.reverse.find? (fun i => (off i).toNat == a) with
    | some c => simp
    | none => by_cases he : (off i).toNat = a <;> simp [he]

theorem drawnHeap_wf {off : Nat → Int} {bit : Nat → Byte} (l : List Nat) {heap : Memory}
    (h : heap.wf = true) : (drawnHeap off bit l heap).wf = true := by
  induction l generalizing heap with
  | nil => exact h
  | cons i rest ih => exact ih (memory_write_wf h)

theorem mem_drawnHeap {off : Nat → Int} {bit : Nat → Byte} (l : List Nat) {heap : Memory}
    {c : Host.Cell} (h : c ∈ drawnHeap off bit l heap) :
    c ∈ heap ∨ ∃ i ∈ l, c = ((off i).toNat, bit i) := by
  induction l generalizing heap with
  | nil => exact .inl h
  | cons i rest ih =>
    rcases ih h with h | ⟨k, hk, rfl⟩
    · rcases memory_mem_write h with rfl | h
      · exact .inr ⟨i, by simp, rfl⟩
      · exact .inl h
    · exact .inr ⟨k, by simp [hk], rfl⟩

end Sys2Proof.Laws
end

