-- ==== Sys2Proof/Laws/Instr.lean ====
section
/-!
SUPPORT. Every instruction as one body run by the robot that is due, so that what holds of every
instruction is proved by cases on its body.
-/

namespace Sys2Proof.Laws

open Sys2Proof.Machine Sys2Proof.Safety

/-- What an instruction does to the registers of the robot that runs it, and to the heap. -/
def tickBody (i : Instr) (s : State) (r : Robot) : TickResult :=
  match i with
  | .halt _ => .completed { r with running := false, pc := r.pc + 1 } s.heap
  | .read _ =>
    if r.sp < 4 then .raised .runtimeStackUnderflow s.heap
    else
      match gatherVisits s (plotOffset r.plotVector r.stride) visits with
      | none => .raised .outOfBounds s.heap
      | some bytes =>
        .completed
          ((r.setCell (r.sp - 4) (gathered s.params bytes)).moved (r.sp - 3) (r.pc + 1))
          s.heap
  | .write =>
    if r.sp < 5 then .raised .runtimeStackUnderflow s.heap
    else
      match drawVisits s (plotOffset r.plotVector r.stride)
          (drawnByte s.params.cellBits (r.cell (r.sp - 5))) visits s.heap with
      | (heap, true) => .completed (r.moved (r.sp - 5) (r.pc + 1)) heap
      | (heap, false) => .raised .outOfBounds heap
  | .sub => binaryTick (subCells s.params.cellBits) s r
  | .add => binaryTick (addCells s.params.cellBits) s r
  | .mul => binaryTick (mulCells s.params.cellBits) s r
  | .div => divideTick (divCells s.params.cellBits) s r
  | .mod => divideTick modCells s r
  | .and => binaryTick (andCells s.params.cellBits) s r
  | .or => binaryTick (orCells s.params.cellBits) s r
  | .not =>
    if r.sp < 1 then .raised .runtimeStackUnderflow s.heap
    else
      .completed
        ((r.setCell (r.sp - 1) (notCell s.params.cellBits (r.cell (r.sp - 1)))).moved
          r.sp (r.pc + 1))
        s.heap
  | .pop =>
    if r.sp < 1 then .raised .runtimeStackUnderflow s.heap
    else .completed (r.moved (r.sp - 1) (r.pc + 1)) s.heap
  | .swap =>
    if r.sp < 2 then .raised .runtimeStackUnderflow s.heap
    else
      .completed
        (((r.setCell (r.sp - 1) (r.cell (r.sp - 2))).setCell (r.sp - 2) (r.cell (r.sp - 1))).moved
          r.sp (r.pc + 1))
        s.heap
  | .dup =>
    if r.sp < 1 then .raised .runtimeStackUnderflow s.heap
    else pushTick (r.cell (r.sp - 1)) 1 s r
  | .reservedStack _ => .raised .badInput s.heap
  | .jmpS target => .completed (r.moved r.sp target.toNat) s.heap
  | .jmpL target =>
    match s.codeRead (r.pc + 1) with
    | none => .raised .outOfBounds s.heap
    | some _ => .completed (r.moved r.sp target.toNat) s.heap
  | .jzS target =>
    if r.sp < 1 then .raised .runtimeStackUnderflow s.heap
    else jumpIfZeroTick target.toNat 1 s r
  | .jzL target =>
    if r.sp < 1 then .raised .runtimeStackUnderflow s.heap
    else
      match s.codeRead (r.pc + 1) with
      | none => .raised .outOfBounds s.heap
      | some _ => jumpIfZeroTick target.toNat 2 s r
  | .reservedOp _ _ =>
    match s.params.unknownOpPolicy with
    | .fault => .raised .badInput s.heap
    | .skip => .completed (r.moved r.sp (r.pc + 1)) s.heap
  | .push addr =>
    match s.codeRead (r.pc + 1) with
    | none => .raised .outOfBounds s.heap
    | some _ =>
      match s.heapRead addr.toNat with
      | none => .raised .outOfBounds s.heap
      | some v => pushTick (zext v.toNat) 2 s r

/-- Every instruction is its body, run by the robot that is due. -/
theorem exec_eq_runTick (i : Instr) (s : State) : exec i s = s.runTick (tickBody i s) := by
  cases i <;> rfl

/-- An instruction whose body completes, where a robot is due. -/
theorem exec_completed {i : Instr} {s : State} {j : Nat} {r r' : Robot} {heap : Memory}
    (h : Due s j r) (hb : tickBody i s r = .completed r' heap) :
    exec i s = .next (s.completeTick j r' heap) := by
  rw [exec_eq_runTick, runTick_completed h hb]

/-- An instruction whose body raises, where a robot is due. -/
theorem exec_raised {i : Instr} {s : State} {j : Nat} {r : Robot} {k : FaultKind} {heap : Memory}
    (h : Due s j r) (hb : tickBody i s r = .raised k heap) :
    exec i s = .next (s.takeFault j r k heap) := by
  rw [exec_eq_runTick, runTick_raised h hb]

/-- An instruction reads nothing of the schedule. -/
theorem tickBody_next (i : Instr) (s : State) (n : Nat) :
    tickBody i { s with next := n } = tickBody i s := by
  cases i <;> rfl

/-- Everything an instruction does for a running robot, wherever the schedule stands. -/
theorem execFor_of_running {s : State} {j : Nat} {r : Robot} (hj : s.robots[j]? = some r)
    (hr : r.running = true) (i : Instr) :
    execFor j i s =
      match tickBody i s r with
      | .completed r' heap => .next (s.completeTick j r' heap)
      | .raised k heap => .next (s.takeFault j r k heap) := by
  have hd : Due { s with next := j } j r := ⟨hj, hr, Nat.le_refl j, fun _ hk hjk => absurd hk (Nat.not_lt.mpr hjk)⟩
  have he := exec_eq_runTick i { s with next := j }
  rw [runTick_of_due hd, tickBody_next] at he
  unfold execFor
  rw [he]
  cases tickBody i s r with
  | completed r' heap => simp [State.completeTick]
  | raised k heap => simp [State.takeFault]

/-- For the robot that is due, running an instruction is `exec`. -/
theorem execFor_of_due {s : State} {j : Nat} {r : Robot} (h : Due s j r) (i : Instr) :
    execFor j i s = exec i s := by
  cases hb : tickBody i s r <;>
    simp only [execFor_of_running h.1 h.2.1, exec_eq_runTick, runTick_of_due h, hb]

/-- A tick of a robot that is not running. -/
theorem tick_of_halted {s : State} {j : Nat} {r : Robot} (hj : s.robots[j]? = some r)
    (hr : r.running = false) : tick j s = .fault .notRunning := by
  simp [tick, hj, hr]

/-- A tick of a running robot. -/
theorem tick_of_running {s : State} {j : Nat} {r : Robot} (hj : s.robots[j]? = some r)
    (hr : r.running = true) :
    (s.len ≤ r.pc ∧ tick j s = .next (s.takeFault j r .outOfBounds s.heap)) ∨
      (r.pc < s.len ∧
        tick j s = execFor j (decodePair (s.code.read r.pc) (s.code.read (r.pc + 1))) s) := by
  rcases Nat.lt_or_ge r.pc s.len with h | h
  · exact .inr ⟨h, by simp [tick, hj, hr, codeRead_of_lt h]⟩
  · exact .inl ⟨h, by simp [tick, hj, hr, codeRead_of_le h]⟩

/-- A running step, where a robot is due, is that robot's tick. -/
theorem step_of_due {s : State} {j : Nat} {r : Robot} (hs : s.sched = .running) (h : Due s j r) :
    step s = tick j s := by
  unfold step hostStep schedStep
  rw [hs]
  simp only
  rw [current_eq_some.mpr h]

/-- A running step, where no robot is due, ends the pass. -/
theorem step_of_none {s : State} (hs : s.sched = .running) (h : s.current = none) :
    step s = .next s.endPass := by
  unfold step hostStep schedStep
  rw [hs]
  simp only
  rw [h]

/-- Everything a step can answer as a next state: nothing outside a run, the end of a pass, a fetch past
the image, a completed tick or a faulted one. -/
theorem step_cases {s t : State} (h : step s = .next t) :
    (s.sched ≠ .running ∧ t = s) ∨
      (s.sched = .running ∧ s.current = none ∧ t = s.endPass) ∨
      (s.sched = .running ∧ ∃ j r, Due s j r ∧
        ((s.len ≤ r.pc ∧ t = s.takeFault j r .outOfBounds s.heap) ∨
          (r.pc < s.len ∧ ∃ i, i = decodePair (s.code.read r.pc) (s.code.read (r.pc + 1)) ∧
            ((∃ r' heap, tickBody i s r = .completed r' heap ∧ t = s.completeTick j r' heap) ∨
              (∃ k heap, tickBody i s r = .raised k heap ∧ t = s.takeFault j r k heap))))) := by
  by_cases hs : s.sched = .running
  · cases hc : s.current with
    | none =>
      rw [step_of_none hs hc] at h
      exact .inr (.inl ⟨hs, rfl, by cases h; rfl⟩)
    | some p =>
      obtain ⟨j, r⟩ := p
      have hd := current_eq_some.mp hc
      rw [step_of_due hs hd] at h
      refine .inr (.inr ⟨hs, j, r, hd, ?_⟩)
      rcases tick_of_running hd.1 hd.2.1 with ⟨hle, e⟩ | ⟨hlt, e⟩
      · rw [e] at h
        exact .inl ⟨hle, by cases h; rfl⟩
      · rw [e, execFor_of_running hd.1 hd.2.1] at h
        refine .inr ⟨hlt, _, rfl, ?_⟩
        split at h
        · exact .inl ⟨_, _, ‹_›, by cases h; rfl⟩
        · exact .inr ⟨_, _, ‹_›, by cases h; rfl⟩
  · refine .inl ⟨hs, ?_⟩
    unfold step hostStep at h
    cases hc : s.sched <;> simp_all

end Sys2Proof.Laws
end

