-- ==== Sys2Proof/Laws/Load.lean ====
section
/-!
SUPPORT. What a load does: its two outcomes, the records it parses, the stores it fills.
-/

namespace Sys2Proof.Laws

open Sys2Proof.Machine

/-- Everything a load can do. -/
theorem load_cases (s : State) (image : List Byte) :
    (∃ k, loadCheck s.params image = some k ∧ s.load image = s.loadFailed k) ∨
      (loadCheck s.params image = none ∧ s.load image = s.loaded image) := by
  unfold State.load
  split
  · exact .inl ⟨_, ‹_›, rfl⟩
  · exact .inr ⟨‹_›, rfl⟩

/-- The address and the value of record `n` of a list of record bytes. -/
def recordIn (l : List Byte) (n : Nat) : Host.Cell :=
  ((l.getD (3 * n) 0).toNat * 256 + (l.getD (3 * n + 1) 0).toNat, l.getD (3 * n + 2) 0)

/-- Records parse exactly when none is cut short and each lies in the heap. -/
theorem parseRecords_eq_some {memSize : Nat} {l : List Byte} {recs : Memory} :
    parseRecords memSize l = some recs ↔
      3 ∣ l.length ∧ (∀ n, 3 * n < l.length → (recordIn l n).1 < memSize) ∧
        recs = (List.range (l.length / 3)).map (recordIn l) := by
  fun_induction parseRecords memSize l generalizing recs with
  | case1 => simp [eq_comm]
  | case2 hi lo v rest hlt ih =>
    simp only [Option.map_eq_some_iff, ih, List.length_cons]
    have hshift : ∀ n, recordIn (hi :: lo :: v :: rest) (n + 1) = recordIn rest n := by
      intro n
      simp [recordIn, Nat.mul_add, List.getD_eq_getElem?_getD,
        show 3 * n + 3 + 1 = (3 * n + 1) + 3 by omega, show 3 * n + 3 + 2 = (3 * n + 2) + 3 by omega]
    have hdiv : (rest.length + 1 + 1 + 1) / 3 = rest.length / 3 + 1 := by omega
    have hmap : (List.range (rest.length / 3 + 1)).map (recordIn (hi :: lo :: v :: rest)) =
        (hi.toNat * 256 + lo.toNat, v) :: (List.range (rest.length / 3)).map (recordIn rest) := by
      rw [List.range_succ_eq_map, List.map_cons, List.map_map]
      congr 1
    rw [hdiv, hmap]
    constructor
    · rintro ⟨_, ⟨h3, hall, rfl⟩, rfl⟩
      refine ⟨by omega, fun n hn => ?_, rfl⟩
      cases n with
      | zero => exact hlt
      | succ n => rw [hshift]; exact hall n (by omega)
    · rintro ⟨h3, hall, rfl⟩
      exact ⟨_, ⟨by omega, fun n hn => by rw [← hshift]; exact hall (n + 1) (by omega), rfl⟩, rfl⟩
  | case3 hi lo v rest hge =>
    simp only [reduceCtorEq, List.length_cons, false_iff, not_and]
    exact fun _ h => absurd (h 0 (by simp)) hge
  | case4 l h1 h2 =>
    simp only [reduceCtorEq, false_iff, not_and]
    intro h3
    match l, h1, h2, h3 with
    | [], h1, _, _ => exact absurd rfl h1
    | [_], _, _, h3 => simp at h3
    | [_, _], _, _, h3 => simp at h3
    | _ :: _ :: _ :: _, _, h2, _ => exact absurd rfl (h2 _ _ _ _)

/-- A memory filled from a list of bytes reads as the list, and as 0 past it. -/
theorem memory_read_ofBytes (bs : List Byte) (a : Nat) : (Memory.ofBytes bs).read a = bs.getD a 0 := by
  have hread : (Memory.ofBytes bs).read a = _ := store_read_writeAll 0 _ [] a
  rw [hread]
  split
  · rename_i c hc
    have hm := List.mem_of_find?_eq_some hc
    have ha := List.find?_some hc
    simp only [List.mem_reverse, List.mem_map, Prod.exists, List.mem_zipIdx_iff_getElem?] at hm
    obtain ⟨b, i, hb, rfl⟩ := hm
    simp only [beq_iff_eq] at ha
    subst ha
    simp [hb]
  · rename_i hn
    rw [List.find?_eq_none] at hn
    have : bs[a]? = none := by
      by_contra h
      obtain ⟨b, hb⟩ := Option.ne_none_iff_exists'.mp h
      exact hn (a, b) (by simpa [List.mem_zipIdx_iff_getElem?] using hb) (by simp)
    simp [this, Store.read]

end Sys2Proof.Laws
end

