-- ==== Sys2Proof/Laws/PerInstr.lean ====
section
/-!
SUPPORT. The families of statements made one lemma per instruction (LAWS.json).
-/

namespace Sys2Proof.Laws

/-- The bytes of a well-formed instruction are as many as its opcode byte says (30_encoding.md R80,
R84). -/
def EncodedLength.Statement (i : Instr) : Prop :=
  i.wellFormed = true → ∃ b0 rest, encode i = b0 :: rest ∧ (b0 :: rest).length = lengthOfOpcode b0

theorem EncodedLength.halt (arg : BitVec 4) : Statement (.halt arg) := by
  have h : ∀ arg : BitVec 4, 1 = lengthOfOpcode (0x0#4 ++ arg) := by decide
  exact fun _ => ⟨_, _, rfl, h arg⟩

theorem EncodedLength.read (arg : BitVec 4) : Statement (.read arg) := by
  have h : ∀ arg : BitVec 4, 1 = lengthOfOpcode (0x1#4 ++ arg) := by decide
  exact fun _ => ⟨_, _, rfl, h arg⟩

theorem EncodedLength.write : Statement .write := fun _ => ⟨_, _, rfl, rfl⟩
theorem EncodedLength.sub : Statement .sub := fun _ => ⟨_, _, rfl, rfl⟩
theorem EncodedLength.add : Statement .add := fun _ => ⟨_, _, rfl, rfl⟩
theorem EncodedLength.mul : Statement .mul := fun _ => ⟨_, _, rfl, rfl⟩
theorem EncodedLength.div : Statement .div := fun _ => ⟨_, _, rfl, rfl⟩
theorem EncodedLength.mod : Statement .mod := fun _ => ⟨_, _, rfl, rfl⟩
theorem EncodedLength.and : Statement .and := fun _ => ⟨_, _, rfl, rfl⟩
theorem EncodedLength.or : Statement .or := fun _ => ⟨_, _, rfl, rfl⟩
theorem EncodedLength.not : Statement .not := fun _ => ⟨_, _, rfl, rfl⟩
theorem EncodedLength.pop : Statement .pop := fun _ => ⟨_, _, rfl, rfl⟩
theorem EncodedLength.swap : Statement .swap := fun _ => ⟨_, _, rfl, rfl⟩
theorem EncodedLength.dup : Statement .dup := fun _ => ⟨_, _, rfl, rfl⟩

theorem EncodedLength.reservedStack (arg : BitVec 4) : Statement (.reservedStack arg) := by
  have h : ∀ arg : BitVec 4, 1 = lengthOfOpcode (0x2#4 ++ arg) := by decide
  exact fun _ => ⟨_, _, rfl, h arg⟩

theorem EncodedLength.jmpS (target : BitVec 4) : Statement (.jmpS target) := by
  have h : ∀ t : BitVec 4, (t != 15) = true → 1 = lengthOfOpcode (0x3#4 ++ t) := by decide
  exact fun hw => ⟨_, _, rfl, h target hw⟩

theorem EncodedLength.jmpL (target : Byte) : Statement (.jmpL target) := fun _ => ⟨_, _, rfl, rfl⟩

theorem EncodedLength.jzS (target : BitVec 4) : Statement (.jzS target) := by
  have h : ∀ t : BitVec 4, (t != 15) = true → 1 = lengthOfOpcode (0x4#4 ++ t) := by decide
  exact fun hw => ⟨_, _, rfl, h target hw⟩

theorem EncodedLength.jzL (target : Byte) : Statement (.jzL target) := fun _ => ⟨_, _, rfl, rfl⟩

theorem EncodedLength.reservedOp (op arg : BitVec 4) : Statement (.reservedOp op arg) := by
  have h : ∀ op arg : BitVec 4, (decide (5 ≤ op.toNat) && decide (op.toNat ≤ 7)) = true →
      1 = lengthOfOpcode (op ++ arg) := by decide
  exact fun hw => ⟨_, _, rfl, h op arg hw⟩

theorem EncodedLength.push (addr : BitVec 15) : Statement (.push addr) := by
  intro _
  refine ⟨_, _, rfl, ?_⟩
  have h : ∀ hi : BitVec 7, (1#1 ++ hi : BitVec 8).getLsbD 7 = true := by decide
  simp only [lengthOfOpcode, h, if_true]
  rfl

end Sys2Proof.Laws
end

