-- ==== Sys2Proof/Machine/Assembler.lean ====
section
/-!
DEFINITION. The assembler syntax the spec uses, from text to bytes, and the disassembler
(30_encoding.md R95, R96). No step of the machine uses it.
-/

namespace Sys2Proof

/-- A line of assembly, operands as the writer gave them. -/
inductive AsmLine where
  | halt
  | read
  | write
  | sub
  | add
  | mul
  | div
  | mod
  | and
  | or
  | not
  | pop
  | swap
  | dup
  | jmpS (t : Nat)
  | jmpL (t : Nat)
  | jzS (t : Nat)
  | jzL (t : Nat)
  | push (a : Nat)
  /-- The pseudo-instruction `JMP t` (30_encoding.md R96). -/
  | jmp (t : Nat)
  /-- The pseudo-instruction `JZ t` (30_encoding.md R96). -/
  | jz (t : Nat)
  deriving DecidableEq, Repr

/-- The instruction a line stands for, none where an operand is out of its range: an assembly error,
never a truncation (30_encoding.md R95, R96). -/
def AsmLine.instr : AsmLine → Option Instr
  | .halt => some (.halt 0)
  | .read => some (.read 0)
  | .write => some .write
  | .sub => some .sub
  | .add => some .add
  | .mul => some .mul
  | .div => some .div
  | .mod => some .mod
  | .and => some .and
  | .or => some .or
  | .not => some .not
  | .pop => some .pop
  | .swap => some .swap
  | .dup => some .dup
  | .jmpS t => if t ≤ 14 then some (.jmpS (BitVec.ofNat 4 t)) else none
  | .jmpL t => if t ≤ 255 then some (.jmpL (BitVec.ofNat 8 t)) else none
  | .jzS t => if t ≤ 14 then some (.jzS (BitVec.ofNat 4 t)) else none
  | .jzL t => if t ≤ 255 then some (.jzL (BitVec.ofNat 8 t)) else none
  | .push a => if a ≤ 32767 then some (.push (BitVec.ofNat 15 a)) else none
  | .jmp t =>
    if t ≤ 14 then some (.jmpS (BitVec.ofNat 4 t))
    else if t ≤ 255 then some (.jmpL (BitVec.ofNat 8 t)) else none
  | .jz t =>
    if t ≤ 14 then some (.jzS (BitVec.ofNat 4 t))
    else if t ≤ 255 then some (.jzL (BitVec.ofNat 8 t)) else none

/-- The bytes a line assembles to (30_encoding.md R95). -/
def AsmLine.assemble (l : AsmLine) : Option (List Byte) := l.instr.map encode

/-! Source text -/

/-- A name in a source text. -/
abbrev AsmName := List Char

/-- The jumps, whose target may be a label. -/
inductive JumpForm where
  | jmpS
  | jmpL
  | jzS
  | jzL
  | jmp
  | jz
  deriving DecidableEq, Repr

/-- A jump of a form to an address. -/
def JumpForm.line : JumpForm → Nat → AsmLine
  | .jmpS => .jmpS
  | .jmpL => .jmpL
  | .jzS => .jzS
  | .jzL => .jzL
  | .jmp => .jmp
  | .jz => .jz

/-- What a source line holds: a label for the address it stands at, an instruction, or a jump to an
address or a label. -/
inductive SourceItem where
  | label (name : AsmName)
  | plain (l : AsmLine)
  | jumpTo (form : JumpForm) (t : Nat)
  | jumpLabel (form : JumpForm) (name : AsmName)
  deriving DecidableEq, Repr

/-- The value of a digit, decimal or hexadecimal. -/
def digitValue (c : Char) : Option Nat :=
  if '0' ≤ c ∧ c ≤ '9' then some (c.toNat - '0'.toNat)
  else if 'a' ≤ c ∧ c ≤ 'f' then some (c.toNat - 'a'.toNat + 10)
  else if 'A' ≤ c ∧ c ≤ 'F' then some (c.toNat - 'A'.toNat + 10)
  else none

/-- The number of a list of digits, none where one is no digit of the base. -/
def digitsValue (base : Nat) : Nat → List Char → Option Nat
  | n, [] => some n
  | n, c :: rest =>
    match digitValue c with
    | some d => if d < base then digitsValue base (base * n + d) rest else none
    | none => none

/-- A number: decimal, or hexadecimal after `0x` (00_scope.md R11). -/
def parseNumber : List Char → Option Nat
  | [] => none
  | '0' :: 'x' :: c :: rest => digitsValue 16 0 (c :: rest)
  | cs => digitsValue 10 0 cs

/-- The one-word instructions. -/
def plainMnemonics : List (String × AsmLine) :=
  [("HALT", .halt), ("READ", .read), ("WRITE", .write), ("SUB", .sub), ("ADD", .add), ("MUL", .mul),
    ("DIV", .div), ("MOD", .mod), ("AND", .and), ("OR", .or), ("NOT", .not), ("POP", .pop),
    ("SWAP", .swap), ("DUP", .dup)]

/-- The jumps. -/
def jumpMnemonics : List (String × JumpForm) :=
  [("JMP.S", .jmpS), ("JMP.L", .jmpL), ("JZ.S", .jzS), ("JZ.L", .jzL), ("JMP", .jmp), ("JZ", .jz)]

/-- The words of a text, at its white space. -/
def asmWords (cs : List Char) : List AsmName :=
  (cs.splitOnP fun c => c == ' ' || c == '\t' || c == '\r').filter fun w => !w.isEmpty

/-- An instruction from its words (30_encoding.md R95). -/
def parseInstruction : List AsmName → Option (List SourceItem)
  | [] => some []
  | [m] => (plainMnemonics.find? fun p => p.1.toList == m).map fun p => [.plain p.2]
  | [m, operand] =>
    if m = "PUSH".toList then
      match operand, operand.getLast? with
      | '[' :: rest, some ']' => (parseNumber rest.dropLast).map fun a => [.plain (.push a)]
      | _, _ => none
    else
      match jumpMnemonics.find? fun p => p.1.toList == m with
      | none => none
      | some p =>
        match operand with
        | [] => none
        | c :: _ =>
          if c.isDigit then (parseNumber operand).map fun t => [.jumpTo p.2 t]
          else some [.jumpLabel p.2 operand]
  | _ => none

/-- A line: a label and a colon before at most one instruction, a comment after it
(30_encoding.md R95). -/
def parseLine (line : List Char) : Option (List SourceItem) :=
  let code := line.takeWhile fun c => c != ';'
  if code.contains ':' then
    match asmWords (code.takeWhile fun c => c != ':') with
    | [name] =>
      (parseInstruction (asmWords ((code.dropWhile fun c => c != ':').drop 1))).map
        (.label name :: ·)
    | _ => none
  else parseInstruction (asmWords code)

/-- The lines of a text. -/
def parseLines : List (List Char) → Option (List SourceItem)
  | [] => some []
  | l :: rest =>
    match parseLine l, parseLines rest with
    | some is, some is' => some (is ++ is')
    | _, _ => none

/-- The bytes an item takes, where a pseudo-instruction to a label has the form `long` says. -/
def SourceItem.size (long : Bool) : SourceItem → Nat
  | .label _ => 0
  | .plain l => (l.assemble.getD []).length
  | .jumpTo form t => ((form.line t).assemble.getD []).length
  | .jumpLabel form _ =>
    match form with
    | .jmpS => 1
    | .jmpL => 2
    | .jzS => 1
    | .jzL => 2
    | .jmp => if long then 2 else 1
    | .jz => if long then 2 else 1

/-- The address of a label, counting from `origin`. -/
def labelAddress (name : AsmName) : Nat → List (SourceItem × Bool) → Option Nat
  | _, [] => none
  | origin, (i, long) :: rest =>
    if i = .label name then some origin else labelAddress name (origin + i.size long) rest

/-- One round of settling the forms: a jump whose label lies above 14 takes the long form. Lengths only
grow, so a form once long stays right (30_encoding.md R96). -/
def settleForms (origin : Nat) (items : List (SourceItem × Bool)) : List (SourceItem × Bool) :=
  items.map fun p =>
    match p.1 with
    | .jumpLabel _ name => (p.1, p.2 || decide (14 < (labelAddress name origin items).getD 0))
    | _ => p

/-- `n` rounds. -/
def settleRounds (origin : Nat) : Nat → List (SourceItem × Bool) → List (SourceItem × Bool)
  | 0, items => items
  | n + 1, items => settleRounds origin n (settleForms origin items)

/-- The bytes of an item, once the forms are settled. -/
def SourceItem.emit (origin : Nat) (items : List (SourceItem × Bool)) :
    SourceItem → Option (List Byte)
  | .label _ => some []
  | .plain l => l.assemble
  | .jumpTo form t => (form.line t).assemble
  | .jumpLabel form name =>
    match labelAddress name origin items with
    | some t => (form.line t).assemble
    | none => none

/-- The bytes of all items, none where one has an error. -/
def emitAll (origin : Nat) (items : List (SourceItem × Bool)) : List SourceItem → Option (List Byte)
  | [] => some []
  | i :: rest =>
    match i.emit origin items, emitAll origin items rest with
    | some bs, some bs' => some (bs ++ bs')
    | _, _ => none

/-- The names a program defines. -/
def labelNames : List SourceItem → List AsmName
  | [] => []
  | .label name :: rest => name :: labelNames rest
  | _ :: rest => labelNames rest

/-- The bytes of a program whose first byte stands at code address `origin`, none where it has an
error. A label defined twice is an error (DESIGN CHOICE, log entry 19). -/
def assembleItems (origin : Nat) (items : List SourceItem) : Option (List Byte) :=
  if (labelNames items).Nodup then
    let settled := settleRounds origin items.length (items.map fun i => (i, false))
    emitAll origin settled items
  else none

/-- The bytes of a source text (30_encoding.md R95, R96). -/
def assembleText (origin : Nat) (text : List Char) : Option (List Byte) :=
  match parseLines (text.splitOn '\n') with
  | some items => assembleItems origin items
  | none => none

/-! Disassembly -/

/-- One hexadecimal digit. -/
def hexDigit (n : Nat) : String :=
  (["0", "1", "2", "3", "4", "5", "6", "7", "8", "9", "A", "B", "C", "D", "E", "F"]).getD n "?"

/-- How a disassembler prints an instruction (30_encoding.md R95). -/
def disassemble : Instr → String
  | .halt _ => "HALT"
  | .read _ => "READ"
  | .write => "WRITE"
  | .sub => "SUB"
  | .add => "ADD"
  | .mul => "MUL"
  | .div => "DIV"
  | .mod => "MOD"
  | .and => "AND"
  | .or => "OR"
  | .not => "NOT"
  | .pop => "POP"
  | .swap => "SWAP"
  | .dup => "DUP"
  | .reservedStack arg => ".byte 0x2" ++ hexDigit arg.toNat
  | .jmpS target => "JMP.S " ++ toString target.toNat
  | .jmpL target => "JMP.L " ++ toString target.toNat
  | .jzS target => "JZ.S " ++ toString target.toNat
  | .jzL target => "JZ.L " ++ toString target.toNat
  | .reservedOp op arg => ".byte 0x" ++ hexDigit op.toNat ++ hexDigit arg.toNat
  | .push addr => "PUSH [" ++ toString addr.toNat ++ "]"

end Sys2Proof
end

