-- ==== Sys2Proof/Tests/Slice0.lean ====
section
/-!
SUPPORT. Small tests, expected results from spec/95_test_vectors.md and the numbered rules, and the
witnesses that the hypotheses of the statements can be met.
-/

namespace Sys2Proof.Tests

open Sys2Proof.Machine Sys2Proof.Safety

/-! Helpers -/

/-- The spec's default parameters with stand-ins for the two open tags (95_test_vectors.md). -/
def params : Config.Params where
  cellBits := 32
  stackCap := 4096
  bitReadMode := .lsb
  unknownOpPolicy := .fault
  magic := #v[77, 78, 79, 80]
  version := #v[1, 2]

/-- A robot at `pc` with the given cells, bottom first, and stride 8. -/
def robot (pc : Nat) (cells : List Cell) : Robot where
  running := true
  pc := pc
  sp := cells.length
  stack := Store.writeAll 0 [] (cells.zipIdx.map fun p => (p.2, p.1))
  stride := 8

/-- A running block with the given robots and `bytes` at code address `pc`, an image of 64 bytes and a
heap of 16. -/
def block (robots : List Robot) (pc : Nat) (bytes : List Byte) : State :=
  { State.reset with
    code := Store.writeAll 0 [] (bytes.zipIdx.map fun p => (pc + p.2, p.1))
    len := 64
    memSize := 16
    memStride := 8
    robotCount := robots.length
    entry := robots.map fun _ => 12
    robots := robots
    sched := .running
    params := params }

/-- One robot at `pc` with the given cells, about to run `bytes`. -/
def one (pc : Nat) (bytes : List Byte) (cells : List Cell) : State :=
  block [robot pc cells] pc bytes

/-- A state with stacks of `n` cells and a heap of `n` bytes, the least stacks for that heap. -/
def tight (n : Nat) (s : State) : State :=
  { s with memSize := n, params := { params with stackCap := n } }

/-- The state a step answers. -/
def stateOf : Host.Outcome State Fault Refusal → Option State
  | .next t => some t
  | _ => none

/-- After a step: `pc` and the stack, bottom first, of robot 0, the fault kind and the ticks. -/
def look (s : State) : Option (Nat × List Cell × Option FaultKind × Nat) :=
  match stateOf (step s) with
  | some t =>
    match t.robots with
    | r :: _ => some (r.pc, (List.range r.sp).map r.cell, t.fault.map (·.kind), t.ticks)
    | [] => none
  | none => none

/-- The first 16 heap bytes after a step. -/
def lookHeap (s : State) : Option (List Nat) :=
  (stateOf (step s)).map fun t => (List.range 16).map fun a => (t.heap.read a).toNat

/-! Well-formedness: each check refuses an ill-formed term (30_encoding.md R87, R89, R91 to R93) -/

theorem test_wellFormed_refuses_read_1 : (Instr.read 1).wellFormed = false := by decide
theorem test_wellFormed_refuses_reservedStack_10 : (Instr.reservedStack 10).wellFormed = false := by
  decide
theorem test_wellFormed_refuses_jmpS_15 : (Instr.jmpS 15).wellFormed = false := by decide
theorem test_wellFormed_refuses_jzS_15 : (Instr.jzS 15).wellFormed = false := by decide
theorem test_wellFormed_refuses_reservedOp_4 : (Instr.reservedOp 4 0).wellFormed = false := by decide
theorem test_wellFormed_refuses_reservedOp_8 : (Instr.reservedOp 8 0).wellFormed = false := by decide
theorem test_wellFormed_accepts_the_edges :
    (Instr.read 15).wellFormed = true ∧ (Instr.reservedStack 11).wellFormed = true ∧
      (Instr.jmpS 14).wellFormed = true ∧ (Instr.jzS 14).wellFormed = true ∧
      (Instr.reservedOp 5 0).wellFormed = true ∧ (Instr.reservedOp 7 15).wellFormed = true := by
  decide

/-! Decoding, each word written out bit by bit from 30_encoding.md R82 to R91 -/

theorem test_decode_halt : decode [0b00000111] = .ok (.halt 7) [] := by decide
theorem test_decode_read : decode [0b00010000] = .ok (.read 0) [] := by decide
theorem test_decode_write : decode [0b00010001] = .ok .write [] := by decide
theorem test_decode_sub : decode [0b00100000] = .ok .sub [] := by decide
theorem test_decode_add : decode [0b00100001] = .ok .add [] := by decide
theorem test_decode_mul : decode [0b00100010] = .ok .mul [] := by decide
theorem test_decode_div : decode [0b00100011] = .ok .div [] := by decide
theorem test_decode_mod : decode [0b00100100] = .ok .mod [] := by decide
theorem test_decode_and : decode [0b00100101] = .ok .and [] := by decide
theorem test_decode_or : decode [0b00100110] = .ok .or [] := by decide
theorem test_decode_not : decode [0b00100111] = .ok .not [] := by decide
theorem test_decode_pop : decode [0b00101000] = .ok .pop [] := by decide
theorem test_decode_swap : decode [0b00101001] = .ok .swap [] := by decide
theorem test_decode_dup : decode [0b00101010] = .ok .dup [] := by decide
theorem test_decode_reservedStack : decode [0b00101011] = .ok (.reservedStack 11) [] := by decide
theorem test_decode_jmpS : decode [0b00111110] = .ok (.jmpS 14) [] := by decide
theorem test_decode_jmpL : decode [0b00111111, 0b00100000] = .ok (.jmpL 32) [] := by decide
theorem test_decode_jzS : decode [0b01000101] = .ok (.jzS 5) [] := by decide
theorem test_decode_jzL : decode [0b01001111, 0b00010101] = .ok (.jzL 21) [] := by decide
theorem test_decode_reservedOp : decode [0b01011010] = .ok (.reservedOp 5 10) [] := by decide
/-- L1.11: `81 23` is `A = 0x0123`. -/
theorem test_decode_push : decode [0b10000001, 0b00100011] = .ok (.push 0x123) [] := by decide
theorem test_decode_leaves_the_rest : decode [0x20, 0x21] = .ok .sub [0x21] := by decide
theorem test_decode_refuses_no_bytes : decode [] = .refused .noOpcodeByte := by decide
theorem test_decode_refuses_missing_escape :
    decode [0x80] = .refused .noEscapeByte ∧ decode [0x3F] = .refused .noEscapeByte ∧
      decode [0x4F] = .refused .noEscapeByte := by
  decide
theorem test_tableWord_push : decodeTableWord 16 0x2381 = some (.push 0x123) := by decide
/-- The edges of the opcode map (30_encoding.md R86, R91). -/
theorem test_decode_map_edges :
    decodePair 0x0F 0 = .halt 15 ∧ decodePair 0x12 0 = .read 2 ∧ decodePair 0x1F 0 = .read 15 ∧
      decodePair 0x2F 0 = .reservedStack 15 ∧ decodePair 0x30 0 = .jmpS 0 ∧
      decodePair 0x40 0 = .jzS 0 ∧ decodePair 0x4E 0 = .jzS 14 ∧
      decodePair 0x50 0 = .reservedOp 5 0 ∧ decodePair 0x7F 0 = .reservedOp 7 15 ∧
      decodePair 0x80 0 = .push 0 ∧ decodePair 0xFF 0xFF = .push 32767 := by
  decide

/-! One step of each instruction (95_test_vectors.md L2) -/

/-- L2.3 row 1. -/
theorem test_halt : look (one 30 [0x00] [42]) = some (31, [42], none, 1) := by decide
theorem test_halt_stops :
    ((stateOf (step (one 30 [0x07] [42]))).map fun t => (t.robots.map (·.running), t.haltedInPass)) =
      some ([false], [0]) := by
  decide

/-- L2.4 row 14. -/
theorem test_read_lsb :
    look { one 20 [0x10] [0, 0, 1, 0] with heap := Memory.ofBytes [1, 0, 1, 0, 0, 1, 0, 1] } =
      some (21, [165], none, 1) := by
  decide
/-- READ of one heap in each mode: what the robot's stack then holds. -/
def readIn (mode : Config.BitReadMode) : Option (Nat × List Cell × Option FaultKind × Nat) :=
  look { one 20 [0x1F] [0, 0, 1, 0] with
    heap := Memory.ofBytes [2, 3, 0, 0, 0, 0, 0, 1], params := { params with bitReadMode := mode } }

/-- L2.4 rows 17 to 19. -/
theorem test_read_modes :
    readIn .lsb = some (21, [65], none, 1) ∧ readIn .nonzero = some (21, [193], none, 1) ∧
      readIn .raw = some (21, [449], none, 1) :=
  ⟨by decide, by decide, by decide⟩

/-- L2.4 row 9, its bits those of 0xA5: the first visit is offset 0. -/
theorem test_write :
    lookHeap (one 20 [0x11] [-91, 8, -1, 1, 0]) =
      some [1, 0, 1, 0, 0, 1, 0, 1, 0, 0, 0, 0, 0, 0, 0, 0] := by
  decide
/-- L2.4 row 11: the stores before the visit out of range stay. -/
theorem test_write_faults_midway :
    lookHeap { one 20 [0x11] [255, 5, 0, 1, 0] with memSize := 8 } =
        some [0, 0, 0, 0, 0, 1, 1, 1, 0, 0, 0, 0, 0, 0, 0, 0] ∧
      look { one 20 [0x11] [255, 5, 0, 1, 0] with memSize := 8 } =
        some (20, [255, 5, 0, 1, 0], some .outOfBounds, 0) := by
  decide

/-- L2.5 row 3. -/
theorem test_sub : look (one 20 [0x20] [-2147483648, 1]) = some (21, [2147483647], none, 1) := by
  decide
/-- L2.5 row 2. -/
theorem test_sub_order : look (one 20 [0x20] [3, 5]) = some (21, [-2], none, 1) := by decide
/-- L2.5 row 5. -/
theorem test_add : look (one 20 [0x21] [2147483647, 1]) = some (21, [-2147483648], none, 1) := by
  decide
/-- L2.5 row 47. -/
theorem test_add_uses_the_top_two : look (one 20 [0x21] [1, 2, 3]) = some (21, [1, 5], none, 1) := by
  decide
/-- L2.5 row 9. -/
theorem test_mul : look (one 20 [0x22] [46341, 46341]) = some (21, [-2147479015], none, 1) := by decide
/-- L2.5 row 13. -/
theorem test_div : look (one 20 [0x23] [-7, 2]) = some (21, [-3], none, 1) := by decide
/-- L2.5 row 19: the zero is looked at before the missing cell. -/
theorem test_div_by_zero :
    look (one 20 [0x23] [0]) = some (20, [0], some .runtimeDivisionByZero, 0) := by
  decide
/-- L2.5 row 24. -/
theorem test_mod : look (one 20 [0x24] [7, -2]) = some (21, [1], none, 1) := by decide
/-- L2.5 row 26. -/
theorem test_mod_of_minimum : look (one 20 [0x24] [-2147483648, -1]) = some (21, [0], none, 1) := by
  decide
/-- L2.5 row 31. -/
theorem test_and : look (one 20 [0x25] [-8, 12]) = some (21, [8], none, 1) := by decide
/-- L2.5 row 34. -/
theorem test_or : look (one 20 [0x26] [5, -1]) = some (21, [-1], none, 1) := by decide
/-- L2.5 row 33. -/
theorem test_or_bits : look (one 20 [0x26] [12, 10]) = some (21, [14], none, 1) := by decide
/-- L2.5 row 37. -/
theorem test_not : look (one 20 [0x27] [2147483647]) = some (21, [-2147483648], none, 1) := by decide
/-- L2.5 row 40. -/
theorem test_pop : look (one 20 [0x28] [1, 2]) = some (21, [1], none, 1) := by decide
/-- L2.5 row 42. -/
theorem test_swap : look (one 20 [0x29] [1, 2]) = some (21, [2, 1], none, 1) := by decide
/-- L2.5 row 43. -/
theorem test_swap_underflow :
    look (one 20 [0x29] [1]) = some (20, [1], some .runtimeStackUnderflow, 0) := by
  decide
/-- L2.5 row 44. -/
theorem test_dup : look (one 20 [0x2A] [7]) = some (21, [7, 7], none, 1) := by decide
/-- L2.5 row 46, with a stack of one cell. -/
theorem test_dup_full :
    look (tight 1 (one 20 [0x2A] [7])) =
      some (20, [7], some .outOfBounds, 0) := by
  decide
/-- L2.1 row 5. -/
theorem test_reservedStack :
    look { one 20 [0x2B] [] with params := { params with unknownOpPolicy := .skip } } =
      some (20, [], some .badInput, 0) := by
  decide
/-- L2.6 row 2. -/
theorem test_jmpS : look (one 12 [0x3E] [1]) = some (14, [1], none, 1) := by decide
/-- L2.6 row 6. -/
theorem test_jmpL : look (one 12 [0x3F, 0xC8] []) = some (200, [], none, 1) := by decide
/-- L2.6 row 5. -/
theorem test_jmpL_cut_short : look (one 63 [0x3F] []) = some (63, [], some .outOfBounds, 0) := by
  decide
/-- L2.6 row 8. -/
theorem test_jzS : look (one 12 [0x45] [0]) = some (5, [], none, 1) := by decide
/-- L2.6 row 10. -/
theorem test_jzS_falls_through : look (one 12 [0x45] [-1]) = some (13, [], none, 1) := by decide
/-- L2.6 row 11. -/
theorem test_jzL : look (one 15 [0x4F, 0x15] [4, 0]) = some (21, [4], none, 1) := by decide
/-- L2.6 row 14: the operand is checked before the escape byte. -/
theorem test_jzL_underflow :
    look (one 63 [0x4F] []) = some (63, [], some .runtimeStackUnderflow, 0) := by
  decide
/-- L2.1 row 2. -/
theorem test_reservedOp : look (one 20 [0x5A] []) = some (20, [], some .badInput, 0) := by decide
/-- L2.1 row 3. -/
theorem test_reservedOp_skipped :
    look { one 20 [0x5A] [] with params := { params with unknownOpPolicy := .skip } } =
      some (21, [], none, 1) := by
  decide
/-- L1.3. -/
theorem test_push :
    look { one 12 [0x81, 0x23] [] with memSize := 0x200, heap := [(0x123, 0xFF)] } =
      some (14, [255], none, 1) := by
  decide
/-- L2.2 row 3. -/
theorem test_push_outside : look (one 12 [0x80, 0x10] []) = some (12, [], some .outOfBounds, 0) := by
  decide

/-! The host's interface, the load and the assembler -/

theorem test_reset_stores_are_canonical :
    State.reset.code.wf = true ∧ State.reset.heap.wf = true := by
  decide

/-- Right after reset, the instruction of a fetch word is the first to run. -/
theorem test_fetchWord_runs_first :
    ((stateOf (step (State.reset.withFetchWord 16 0x203F))).map fun t => t.robots.map (·.pc)) =
      some [32] := by
  decide

/-- Power-up with the test parameters. -/
def blank : State := { State.reset with params := params }

/-- The kind of the load error, if any, of an image loaded with the test parameters. -/
def loadError (image : List Byte) : Option FaultKind :=
  (blank.load image).fault.map FaultRecord.kind

/-- A header: the tags, `mem_size`, stride, `data_seg_offset`, `robot_count`. -/
def header (size : Nat) (stride dataSegOffset count : Byte) : List Byte :=
  [77, 78, 79, 80, 1, 2, BitVec.ofNat 8 (size / 256), BitVec.ofNat 8 size, stride, dataSegOffset, count]

/-- L1.2's image: three records for address 5. -/
def recordsImage : List Byte := header 16 0 13 1 ++ [12, 0] ++ [0, 5, 1, 0, 5, 2, 0, 5, 3]

def loadedOnce : State := blank.load recordsImage

/-- L1.2. -/
theorem test_load_last_record_wins : loadedOnce.heap = [(5, 3)] := by decide
/-- L2.8 row 3. -/
theorem test_load_short : loadError ([77, 78, 79, 80, 1, 2, 0, 0, 0, 11, 17]) = some .badInput := by
  decide
/-- L2.8 row 4. -/
theorem test_load_wrong_magic :
    loadError ([76, 78, 79, 80, 1, 2, 0, 0, 0, 12, 17, 0]) = some .badInput := by
  decide
/-- L2.8 row 5. -/
theorem test_load_too_many_robots : loadError (header 0 0 12 17 ++ [0]) = some .notSupported := by
  decide
/-- L2.8 rows 6 and 7. -/
theorem test_load_heap_size :
    loadError (header 4097 0 12 0 ++ [0]) = some .notSupported ∧
      loadError (header 4096 0 12 0 ++ [0]) = none := by
  decide
/-- L2.8 row 8. -/
theorem test_load_missing_entries : loadError (header 0 0 12 5 ++ [0]) = some .badInput := by decide
/-- L2.8 rows 9 and 10. -/
theorem test_load_bad_records :
    loadError (header 16 0 12 1 ++ [12, 0, 0, 0, 5]) = some .badInput ∧
      loadError (header 16 0 13 1 ++ [12, 0, 0, 16, 5]) = some .badInput := by
  decide
/-- L2.8 row 12. -/
theorem test_load_no_records : loadError (header 16 0 255 1 ++ [12, 0]) = none := by decide

/-- A tick that L1.10's robot takes, and the notice at the end of its pass (L2.7 row 4). -/
theorem test_endPass_notice :
    ((stateOf (step { block [{ robot 13 [] with running := false }] 12 [0] with
        next := 1, haltedInPass := [0], ticks := 1 })).map fun t => (t.sched, t.notices)) =
      some (.done, [{ robot := 0, lastValue := none, ticksAtReport := 1 }]) := by
  decide

/-- The code of program P2, in its source form (95_test_vectors.md L3). -/
theorem test_assemble_countdown :
    assembleText 12
        ("PUSH [0]\nloop: DUP ; n, n\nJZ done\nPUSH [1]\nSUB\nJMP loop\ndone: HALT".toList) =
      some [0x80, 0x00, 0x2A, 0x4F, 0x15, 0x80, 0x01, 0x20, 0x3E, 0x00] := by
  decide
/-- 30_encoding.md R95, R96. -/
theorem test_assemble_ranges :
    (AsmLine.jmp 15).assemble = some [0x3F, 0x0F] ∧ (AsmLine.jmpS 15).assemble = none ∧
      (AsmLine.push 32768).assemble = none ∧ assembleText 12 "JMP.S 0x0F".toList = none := by
  decide
theorem test_disassemble : disassemble (.push 291) = "PUSH [291]" := by decide

/-! Witnesses: states and operands that meet the hypotheses of each statement, at the edges of each
clause -/

theorem witness_DecodeOfEncodeGivesTheInstruction :
    (Instr.read 15).wellFormed = true ∧ (Instr.push 32767).wellFormed = true := by
  decide

/-- Both sides of every edge of the opcode map. -/
theorem witness_OpcodeMapNamesEveryByte :
    (0x0F : Byte).toNat ≤ 0x0F ∧ (0x12 ≤ (0x12 : Byte).toNat ∧ (0x1F : Byte).toNat ≤ 0x1F) ∧
      0x2B ≤ (0x2B : Byte).toNat ∧ (0x2F : Byte).toNat ≤ 0x2F ∧ 0x30 ≤ (0x30 : Byte).toNat ∧
      (0x3E : Byte).toNat ≤ 0x3E ∧ 0x40 ≤ (0x40 : Byte).toNat ∧ (0x4E : Byte).toNat ≤ 0x4E ∧
      0x50 ≤ (0x50 : Byte).toNat ∧ (0x7F : Byte).toNat ≤ 0x7F ∧ 0x80 ≤ (0x80 : Byte).toNat := by
  decide

/-- A one-byte opcode, a two-byte one with its escape byte, and one without. -/
theorem witness_LengthComesFromTheOpcodeByteAlone :
    decode [0x7F] = .ok (.reservedOp 7 15) [] ∧ decode [0x80, 7, 9] = .ok (.push 7) [9] ∧
      decode [0x3F, 7] = .ok (.jmpL 7) [] ∧ decode [0x4F] = .refused .noEscapeByte := by
  decide

theorem witness_StepRunsTheDecodedInstruction :
    (one 63 [0x20] []).sched = .running ∧ Due (one 63 [0x20] []) 0 (robot 63 []) ∧
      (robot 63 []).pc < (one 63 [0x20] []).len ∧
      decode [(one 63 [0x20] []).code.read 63, (one 63 [0x20] []).code.read 64] = .ok .sub [0] ∧
      Instr.sub.wellFormed = true := by
  decide

theorem witness_StepRunsTheInstructionEncodedAtThePc :
    (one 62 [0x80, 5] []).sched = .running ∧ Due (one 62 [0x80, 5] []) 0 (robot 62 []) ∧
      (robot 62 []).pc < (one 62 [0x80, 5] []).len ∧ (Instr.push 5).wellFormed = true ∧
      ∀ (n : Nat) (b : Byte), (encode (.push 5))[n]? = some b →
        (one 62 [0x80, 5] []).code.read (62 + n) = b := by
  refine ⟨by decide, by decide, by decide, by decide, fun n b h => ?_⟩
  match n, h with
  | 0, h => cases h; decide
  | 1, h => cases h; decide

theorem witness_FetchPastTheImageFaults :
    (one 64 [] []).sched = .running ∧ Due (one 64 [] []) 0 (robot 64 []) ∧
      (one 64 [] []).len ≤ (robot 64 []).pc := by
  decide

/-- The end of a pass in which robot 1 halted: robot 0 runs on, or is halted too. -/
def passEnd (goesOn : Bool) : State :=
  { block [{ robot 12 [] with running := goesOn }, { robot 13 [4] with running := false }] 12 [0] with
    next := 2
    haltedInPass := [1] }

theorem witness_EndOfPassReportsHalts :
    (∀ goesOn, (passEnd goesOn).sched = .running ∧
      ∀ k r, (passEnd goesOn).next ≤ k → (passEnd goesOn).robots[k]? = some r → r.running = false) ∧
      (∃ r ∈ (passEnd true).robots, r.running = true) ∧
      ∀ r ∈ (passEnd false).robots, r.running = false := by
  refine ⟨fun goesOn => ⟨rfl, fun k r hk h => ?_⟩, by decide, by decide⟩
  have hlt : k < 2 := (List.getElem?_eq_some_iff.mp h).1
  exact absurd hlt (Nat.not_lt.mpr hk)

theorem witness_StepOutsideARunChangesNothing : State.reset.sched ≠ .running := by decide

theorem witness_NoTickWithoutARunningRobot :
    ∀ k r, State.reset.next ≤ k → State.reset.robots[k]? = some r → r.running = false := by
  intro k r _ h
  cases h

/-- Three robots, the middle one halted. -/
def three : State :=
  block [robot 12 [], { robot 13 [] with running := false }, robot 14 [7]] 12 [0x30, 0, 0x2A]

theorem witness_RobotsTickInAscendingOrder :
    ∃ t, three.sched = .running ∧ Due three 0 (robot 12 []) ∧ step three = .next t ∧
      t.sched = .running ∧ Due t 2 (robot 14 [7]) :=
  ⟨_, by decide, by decide, rfl, by decide, by decide⟩

/-- A tick that completes and one that faults. -/
theorem witness_TicksCountCompletedInstructions :
    (∃ t, three.sched = .running ∧ Due three 0 (robot 12 []) ∧ step three = .next t ∧
      t.sched = .running) ∧
      ∃ t, (one 20 [0x28] []).sched = .running ∧ Due (one 20 [0x28] []) 0 (robot 20 []) ∧
        step (one 20 [0x28] []) = .next t ∧ t.sched = .faulted :=
  ⟨⟨_, by decide, by decide, rfl, by decide⟩, _, by decide, by decide, rfl, by decide⟩

theorem witness_FetchWordIsRunNext : decodeTableWord 16 0x203F = some (.jmpL 32) := by decide

/-- PUSH at the last code byte, at and below `mem_size`, on a full stack and with one cell free. -/
theorem witness_PushPushesTheHeapByte :
    0x80 ≤ (0x80 : Byte).toNat ∧ (Due (one 63 [0x80] []) 0 (robot 63 []) ∧ (one 63 [0x80] []).len ≤ 63 + 1) ∧
      (Due (one 62 [0x80, 15] []) 0 (robot 62 []) ∧ 62 + 1 < (one 62 [0x80, 15] []).len ∧
        (one 62 [0x80, 15] []).memSize ≤ (16 : BitVec 15).toNat ∧
        (15 : BitVec 15).toNat < (one 62 [0x80, 15] []).memSize ∧
        (robot 62 []).sp < (one 62 [0x80, 15] []).params.stackCap) ∧
      Due (tight 1 (one 12 [0x80, 0] [7])) 0 (robot 12 [7]) ∧
      (0 : BitVec 15).toNat < (tight 1 (one 12 [0x80, 0] [7])).memSize ∧
      (tight 1 (one 12 [0x80, 0] [7])).params.stackCap ≤ (robot 12 [7]).sp := by
  decide

theorem witness_HaltStopsTheRobot :
    (0x0F : Byte).toNat ≤ 0x0F ∧ Due (one 30 [0x00] [42]) 0 (robot 30 [42]) := by
  decide

/-- A heap of 8 bytes, so that the fourth of the visits below is the first outside it. -/
def smallHeap (cells : List Cell) : State := { one 20 [0x11] cells with memSize := 8 }

/-- WRITE with four cells and with five; all visits in the heap; none; the first three. -/
theorem witness_WriteDrawsEightBits :
    params.valid ∧
      (Due (one 20 [0x11] [1, 2, 3, 4]) 0 (robot 20 [1, 2, 3, 4]) ∧ (robot 20 [1, 2, 3, 4]).sp < 5) ∧
      (Due (smallHeap [255, 0, 0, 1, 0]) 0 (robot 20 [255, 0, 0, 1, 0]) ∧
        5 ≤ (robot 20 [255, 0, 0, 1, 0]).sp ∧
        ∀ i, i < 8 → VisitInHeap (smallHeap [255, 0, 0, 1, 0]) (robot 20 [255, 0, 0, 1, 0]) i) ∧
      (Due (smallHeap [255, -1, 0, 1, 0]) 0 (robot 20 [255, -1, 0, 1, 0]) ∧
        ¬VisitInHeap (smallHeap [255, -1, 0, 1, 0]) (robot 20 [255, -1, 0, 1, 0]) 0) ∧
      Due (smallHeap [255, 5, 0, 1, 0]) 0 (robot 20 [255, 5, 0, 1, 0]) ∧
      (∀ i, i < 3 → VisitInHeap (smallHeap [255, 5, 0, 1, 0]) (robot 20 [255, 5, 0, 1, 0]) i) ∧
      ¬VisitInHeap (smallHeap [255, 5, 0, 1, 0]) (robot 20 [255, 5, 0, 1, 0]) 3 :=
  ⟨by decide, by decide, by decide, by decide, by decide, by decide, by decide⟩

/-- READ with three cells and with four; a visit outside the heap; none, in each mode. -/
theorem witness_ReadGathersEightBits :
    (params.valid ∧ (0x10 : Byte).toNat = 0x10 ∧ 0x12 ≤ (0x12 : Byte).toNat ∧
      (0x1F : Byte).toNat ≤ 0x1F) ∧
      (Due (one 20 [0x10] [1, 2, 3]) 0 (robot 20 [1, 2, 3]) ∧ (robot 20 [1, 2, 3]).sp < 4) ∧
      (Due (smallHeap [1, 0, 1, 0]) 0 (robot 20 [1, 0, 1, 0]) ∧ 4 ≤ (robot 20 [1, 0, 1, 0]).sp ∧
        ∃ i, i < 8 ∧ ¬VisitInHeap (smallHeap [1, 0, 1, 0]) (robot 20 [1, 0, 1, 0]) i) ∧
      ∀ mode, { params with bitReadMode := mode }.valid ∧
        Due { smallHeap [0, 0, 1, 0] with params := { params with bitReadMode := mode } } 0
          (robot 20 [0, 0, 1, 0]) ∧
        ∀ i, i < 8 →
          VisitInHeap { smallHeap [0, 0, 1, 0] with params := { params with bitReadMode := mode } }
            (robot 20 [0, 0, 1, 0]) i := by
  refine ⟨by decide, by decide, ⟨by decide, by decide, 7, by decide⟩, fun mode => ?_⟩
  cases mode <;> decide

/-- A robot about to WRITE `v` along row 0, and the block after it with a robot about to READ there. -/
def drawer (v : Cell) : Robot := robot 20 [v, 0, 0, 1, 0]

def gatherer : Robot := robot 21 [0, 0, 1, 0]

def drawn (v : Cell) : State :=
  (stateOf (exec .write (block [drawer v] 20 [0x11]))).getD State.reset

/-- A value inside `0 .. 255` and one outside. -/
theorem witness_ReadReturnsWhatWriteDrew :
    ∀ v, v = 165 ∨ v = 421 →
      params.valid ∧ Due (block [drawer v] 20 [0x11]) 0 (drawer v) ∧ 5 ≤ (drawer v).sp ∧
        (∀ i, i < 8 → VisitInHeap (block [drawer v] 20 [0x11]) (drawer v) i) ∧
        (∀ i m, i < m → m < 8 → visitOffset (drawer v) i ≠ visitOffset (drawer v) m) ∧
        exec .write (block [drawer v] 20 [0x11]) = .next (drawn v) ∧
        Due { drawn v with robots := [gatherer], next := 0 } 0 gatherer ∧
        ((drawn v).params.valid ∧ 4 ≤ gatherer.sp ∧ (drawn v).memSize = 16 ∧
          gatherer.stride = (drawer v).stride) ∧
        ∀ n, 1 ≤ n → n ≤ 4 → gatherer.cell (4 - n) = (drawer v).cell (5 - n) := by
  intro v hv
  have hoff : ∀ i, visitOffset (drawer v) i = i := by
    rcases hv with rfl | rfl <;> intro i <;>
      simp [visitOffset, drawer, robot, Robot.cell, Store.writeAll, Store.write, Store.insert,
        Store.erase, Store.read]
  refine ⟨by decide, ?_, ?_, ?_, fun i m h _ => ?_, ?_, ?_, ?_, fun n h1 h2 => ?_⟩
  · rcases hv with rfl | rfl <;> decide
  · rcases hv with rfl | rfl <;> decide
  · rcases hv with rfl | rfl <;> decide
  · rw [hoff, hoff]
    omega
  · rcases hv with rfl | rfl <;> rfl
  · rcases hv with rfl | rfl <;> decide
  · rcases hv with rfl | rfl <;> decide
  · rcases hv with rfl | rfl <;> interval_cases n <;> decide

/-- SUB, ADD, MUL, AND, OR and SWAP with one cell and with two. -/
theorem witness_BinaryOperations :
    params.valid ∧ (Due (one 20 [0x20] [7]) 0 (robot 20 [7]) ∧ (robot 20 [7]).sp < 2) ∧
      Due (one 20 [0x20] [7, 8]) 0 (robot 20 [7, 8]) ∧ 2 ≤ (robot 20 [7, 8]).sp := by
  decide

/-- DIV and MOD on an empty stack, with a zero on top, with one cell and with two, both signs. -/
theorem witness_Divisions :
    params.valid ∧ (Due (one 20 [0x23] []) 0 (robot 20 []) ∧ (robot 20 []).sp = 0) ∧
      (Due (one 20 [0x23] [0]) 0 (robot 20 [0]) ∧ 0 < (robot 20 [0]).sp ∧ (robot 20 [0]).cell 0 = 0) ∧
      (Due (one 20 [0x23] [3]) 0 (robot 20 [3]) ∧ (robot 20 [3]).sp = 1 ∧ (robot 20 [3]).cell 0 ≠ 0) ∧
      Due (one 20 [0x23] [-7, 2]) 0 (robot 20 [-7, 2]) ∧ 2 ≤ (robot 20 [-7, 2]).sp ∧
      (robot 20 [-7, 2]).cell 1 ≠ 0 ∧ (robot 20 [-7, 2]).cell 0 ≤ 0 ∧
      InRange params.cellBits ((robot 20 [-7, 2]).cell 0) ∧ 0 ≤ (robot 20 [7, -2]).cell 0 :=
  ⟨by decide, by decide, by decide, by decide, by decide, by decide, by decide, by decide, by decide,
    by decide⟩

/-- NOT and POP on an empty stack and with one cell, which is in range. -/
theorem witness_OneOperand :
    params.valid ∧ (Due (one 20 [0x27] []) 0 (robot 20 []) ∧ (robot 20 []).sp = 0) ∧
      Due (one 20 [0x27] [5]) 0 (robot 20 [5]) ∧ 0 < (robot 20 [5]).sp ∧
      InRange params.cellBits ((robot 20 [5]).cell 0) := by
  decide

/-- DUP on an empty stack, a full one and one with one cell free. -/
theorem witness_DupPushesTheTopAgain :
    (Due (one 20 [0x2A] []) 0 (robot 20 []) ∧ (robot 20 []).sp = 0) ∧
      (Due (tight 1 (one 20 [0x2A] [7])) 0 (robot 20 [7]) ∧
        (tight 1 (one 20 [0x2A] [7])).params.stackCap ≤ (robot 20 [7]).sp) ∧
      Due (tight 2 (one 20 [0x2A] [7])) 0 (robot 20 [7]) ∧
      (robot 20 [7]).sp < (tight 2 (one 20 [0x2A] [7])).params.stackCap := by
  decide

theorem witness_ReservedStackBytesRaiseBadInput :
    0x2B ≤ (0x2B : Byte).toNat ∧ (0x2F : Byte).toNat ≤ 0x2F ∧
      Due (one 20 [0x2B] []) 0 (robot 20 []) := by
  decide

theorem witness_ReservedOpcodesFollowThePolicy :
    0x50 ≤ (0x50 : Byte).toNat ∧ (0x7F : Byte).toNat ≤ 0x7F ∧
      (Due (one 20 [0x50] []) 0 (robot 20 []) ∧ (one 20 [0x50] []).params.unknownOpPolicy = .fault) ∧
      Due { one 20 [0x7F] [] with params := { params with unknownOpPolicy := .skip } } 0
        (robot 20 []) := by
  decide

/-- Long jumps at the last code byte and one before it. -/
theorem witness_JmpGoesToItsTarget :
    (14 : BitVec 4) ≠ 15 ∧ (Due (one 63 [0x3F] []) 0 (robot 63 []) ∧ (one 63 [0x3F] []).len ≤ (robot 63 []).pc + 1) ∧
      Due (one 62 [0x3F, 0] []) 0 (robot 62 []) ∧
      (robot 62 []).pc + 1 < (one 62 [0x3F, 0] []).len := by
  decide

/-- Conditional jumps on an empty stack, a zero and a cell that is not 0, with the escape byte inside
and outside the image. -/
theorem witness_JzPopsAndJumpsOnZero :
    (14 : BitVec 4) ≠ 15 ∧ (Due (one 12 [0x45] []) 0 (robot 12 []) ∧ (robot 12 []).sp = 0) ∧
      (Due (one 62 [0x4F, 1] [0]) 0 (robot 62 [0]) ∧ 0 < (robot 62 [0]).sp ∧
        (robot 62 [0]).cell 0 = 0 ∧ (robot 62 [0]).pc + 1 < (one 62 [0x4F, 1] [0]).len) ∧
      (Due (one 62 [0x4F, 1] [-1]) 0 (robot 62 [-1]) ∧ (robot 62 [-1]).cell 0 ≠ 0) ∧
      Due (one 63 [0x4F] [1]) 0 (robot 63 [1]) ∧ 0 < (robot 63 [1]).sp ∧
      (one 63 [0x4F] [1]).len ≤ (robot 63 [1]).pc + 1 := by
  decide

/-- The block `one` sets up meets the invariant. -/
theorem witness_one_meets_the_invariant : MachineInv (one 20 [0x20] [5, 3]) := by
  constructor <;> try decide
  intro r hr
  have hr : r = robot 20 [5, 3] := List.mem_singleton.mp hr
  subst hr
  constructor <;> decide

theorem witness_StepKeepsTheInvariant :
    ∃ t, MachineInv (one 20 [0x20] [5, 3]) ∧ step (one 20 [0x20] [5, 3]) = .next t ∧ t.ticks = 1 :=
  ⟨_, witness_one_meets_the_invariant, rfl, by decide⟩

theorem witness_LoadMeetsTheInvariant :
    blank.params.valid ∧ loadedOnce.sched = .running ∧
      blank.params.admits (headerMemSize recordsImage) ∧
      (blank.load (header 0 0 12 17 ++ [0])).sched ≠ .running := by
  decide

/-- A run before a fault, and the state right after it. -/
theorem witness_StepKeepsTheFaultRecordRight :
    ∃ t u, RecordRight (one 20 [0x28] []) ∧ step (one 20 [0x28] []) = .next t ∧ t.sched = .faulted ∧
      RecordRight t ∧ step t = .next u :=
  ⟨_, _, fun h => absurd h (by decide), rfl, by decide,
    fun _ => ⟨_, _, _, rfl, rfl, rfl, by decide, by decide, by decide⟩, rfl⟩

/-- A WRITE that faults after three stores. -/
theorem witness_AFaultKeepsEveryRobot :
    ∃ t, (smallHeap [255, 5, 0, 1, 0]).sched = .running ∧
      step (smallHeap [255, 5, 0, 1, 0]) = .next t ∧ t.sched = .faulted ∧
      t.heap ≠ (smallHeap [255, 5, 0, 1, 0]).heap :=
  ⟨_, by decide, rfl, by decide, by decide⟩

theorem witness_CodeAndConfigurationNeverChange :
    ∃ t, step three = .next t ∧ t.ticks = 1 :=
  ⟨_, rfl, by decide⟩

theorem witness_ATickChangesOnlyItsOwnRobot :
    ∃ t, three.sched = .running ∧ Due three 0 (robot 12 []) ∧ step three = .next t :=
  ⟨_, by decide, by decide, rfl⟩

/-- One robot alone, and the same robot after another; DUP completes and POP faults in both. -/
theorem witness_ATickReadsOnlyItsOwnRobot :
    ∀ i ∈ [Instr.jmpS 3, .pop], ∃ t v,
      Due (block [robot 12 []] 12 []) 0 (robot 12 []) ∧
        Due { block [robot 40 [9], robot 12 []] 12 [0] with next := 1 } 1 (robot 12 []) ∧
        exec i (block [robot 12 []] 12 []) = .next t ∧
        exec i { block [robot 40 [9], robot 12 []] 12 [0] with next := 1 } = .next v := by
  intro i hi
  rcases List.mem_pair.mp hi with rfl | rfl <;> exact ⟨_, _, by decide, by decide, rfl, rfl⟩

theorem witness_OnlyHaltWritesRunning :
    ∃ t, exec .dup (one 20 [0x2A] [7]) = .next t ∧ ∀ arg, Instr.dup ≠ .halt arg :=
  ⟨_, rfl, fun _ h => by cases h⟩

theorem witness_HaltedRobotsStayAsTheyAre :
    ∃ t, three.robots[1]? = some { robot 13 [] with running := false } ∧ step three = .next t :=
  ⟨_, rfl, rfl⟩

theorem witness_OnlyWriteChangesTheHeap :
    ∃ t, exec .dup (one 20 [0x2A] [7]) = .next t ∧ Instr.dup ≠ .write :=
  ⟨_, rfl, by decide⟩

theorem witness_RunsLeaveInitializersOrBits :
    ∃ t, params.valid ∧ hostRun 2 loadedOnce = .next t ∧ t.sched = .done :=
  ⟨_, by decide, rfl, by decide⟩

/-- An image for each branch of the load checks, those at the edge among them. -/
theorem witness_LoadChecksRunInOrder :
    1024 < (header 0 0 12 0 ++ List.replicate 1014 0).length ∧
      (header 0 0 11 0).length < 12 ∧
      ([76, 78, 79, 80, 1, 2, 0, 0, 0, 12, 17, 0] : List Byte).take 4 ≠ params.magic.toList ∧
      16 < byteAt (header 0 0 12 17 ++ [0]) 10 ∧
      4096 < headerMemSize (header 4097 0 12 0 ++ [0]) ∧
      (header 0 0 12 5 ++ [0]).length < 11 + byteAt (header 0 0 12 5 ++ [0]) 10 ∧
      loadError (header 16 0 13 1 ++ [12, 0, 0, 16, 5]) = some .badInput ∧
      loadError (header 4096 0 12 0 ++ [0]) = none ∧ loadError recordsImage = none := by
  refine ⟨?_, by decide, by decide, by decide, by decide, by decide, by decide, by decide, by decide⟩
  rw [List.length_append, List.length_replicate]
  decide

theorem witness_LoadDiscardsThePreviousState :
    ∃ s u : State, s ≠ u ∧ s.params = u.params ∧ s.loads = u.loads :=
  ⟨one 12 [0] [], one 12 [0] [7], by decide, rfl, rfl⟩

theorem witness_LoadSetsAllButHeapAndStackCells :
    loadedOnce.sched = .running ∧ 0 < byteAt recordsImage 10 ∧ loadedOnce.robots.length = 1 := by
  decide

/-- The last of three records for address 5, and an address without one. -/
theorem witness_HeapHoldsTheLastRecords :
    loadedOnce.sched = .running ∧ recordAt recordsImage 2 < recordsImage.length ∧
      (∀ m, 2 < m → recordAt recordsImage m < recordsImage.length →
        recordAddr recordsImage m ≠ recordAddr recordsImage 2) ∧
      ∀ n, recordAt recordsImage n < recordsImage.length → recordAddr recordsImage n ≠ 6 := by
  have hlen : recordsImage.length = 22 := by decide
  have hat : ∀ n, recordAt recordsImage n = 13 + 3 * n := fun _ => rfl
  refine ⟨by decide, by decide, fun m h1 h2 => ?_, fun n h => ?_⟩
  · rw [hat, hlen] at h2; omega
  · rw [hat, hlen] at h
    have : n < 3 := by omega
    interval_cases n <;> decide

theorem witness_AnEmptyRunIsDoneAtOnce :
    (blank.load (header 0 0 12 0 ++ [0])).sched = .running ∧
      byteAt (header 0 0 12 0 ++ [0]) 10 = 0 := by
  decide

/-- L2.7 row 3: a tick applied to a halted robot, though another robot is due. -/
theorem test_tick_of_a_halted_robot : tick 1 three = .fault .notRunning := rfl

/-- A tick applied to a running robot that is not due runs that robot. -/
theorem test_tick_of_a_later_robot :
    ((stateOf (tick 2 three)).map fun t => (t.robots.map fun r => (r.pc, r.sp), t.next)) =
      some ([(12, 0), (13, 0), (15, 2)], 3) := by
  decide

/-- The right side of the first clause, and a robot on which it fails. -/
theorem witness_OnlyATickOfAHaltedRobotRaisesNotRunning :
    (∃ r, three.robots[1]? = some r ∧ r.running = false) ∧
      ¬∃ r, three.robots[0]? = some r ∧ r.running = false := by
  refine ⟨⟨_, rfl, rfl⟩, ?_⟩
  rintro ⟨r, h, hr⟩
  cases h
  cases hr

/-- An image of the largest heap, with the open tags of the default parameters and no robot. -/
def defaultImage (magic : Vector Byte 4) (version : Vector Byte 2) : List Byte :=
  magic.toList ++ version.toList ++ [16, 0, 0, 12, 0, 0]

theorem defaultImage_loads (p : Config.Params) : loadCheck p (defaultImage p.magic p.version) = none := by
  obtain ⟨_, _, _, _, ⟨⟨m⟩, hm⟩, ⟨⟨v⟩, hv⟩⟩ := p
  match m, hm, v, hv with
  | [a, b, c, d], _, [e, f], _ =>
    simp [loadCheck, defaultImage, imageRobotCount, imageMemSize, imageByte, imageRecords, parseRecords,
      Config.codeCap, Config.minImageLen, Config.maxRobots, Config.heapCap, Config.hdrLen]

theorem witness_DefaultParametersAdmitEveryImage :
    State.reset.params = Config.defaultParams ∧
      (State.reset.load (defaultImage Config.magic Config.version)).sched = .running := by
  refine ⟨rfl, ?_⟩
  have h : loadCheck State.reset.params (defaultImage Config.magic Config.version) = none :=
    defaultImage_loads Config.defaultParams
  unfold State.load
  rw [h]
  rfl

end Sys2Proof.Tests
end

section
/-!
PROOFS. The load meets the invariant (O39), and the default parameters admit every image (O56).
-/

namespace Sys2Proof.Proofs

open Sys2Proof.Machine Sys2Proof.Safety Sys2Proof.Laws

/-! What an image that passes the load checks satisfies -/

/-- The load checks as one condition on the image (70_reset_and_hazards.md R271). -/
theorem loadCheck_eq_none_iff {p : Config.Params} {image : List Byte} :
    loadCheck p image = none ↔
      image.length ≤ Config.codeCap ∧ Config.minImageLen ≤ image.length ∧
        (image.take 4 = p.magic.toList ∧ (image.drop 4).take 2 = p.version.toList) ∧
        imageRobotCount image ≤ Config.maxRobots ∧ imageMemSize image ≤ Config.heapCap ∧
        Config.hdrLen + imageRobotCount image ≤ image.length ∧ imageRecords image ≠ none := by
  simp only [loadCheck, ite_eq_iff, reduceCtorEq, and_false, false_or, and_true, not_lt, not_or,
    not_not, ne_eq]

/-- A run starts exactly after a load whose checks all pass (70_reset_and_hazards.md R278, R280). -/
theorem load_sched_running_iff (s : State) (image : List Byte) :
    (s.load image).sched = .running ↔ loadCheck s.params image = none := by
  rcases load_cases s image with ⟨k, hk, hload⟩ | ⟨hk, hload⟩
  · simp [hload, hk, State.loadFailed]
  · simp [hload, hk, State.loaded]

/-- Every initializer record lies in the heap the image states (70_reset_and_hazards.md R275). -/
theorem addr_lt_of_mem_imageRecords {image : List Byte} {recs : Memory}
    (h : imageRecords image = some recs) : ∀ c ∈ recs, c.1 < imageMemSize image := by
  obtain ⟨_, hfit, rfl⟩ := parseRecords_eq_some.mp h
  intro c hc
  obtain ⟨n, hn, rfl⟩ := List.mem_map.mp hc
  have hn : n < _ := List.mem_range.mp hn
  exact hfit n (by omega)

/-- The heap of a run starts as the records, written in file order over a cleared heap
(70_reset_and_hazards.md R274, R275). -/
theorem loaded_heap (s : State) {image : List Byte} {recs : Memory}
    (h : imageRecords image = some recs) : (s.loaded image).heap = Store.writeAll 0 [] recs := by
  simp [State.loaded, h]

/-! The stores and robots a load makes -/

/-- A cleared store filled from pairs below a bound stays below it. -/
theorem addr_lt_of_mem_writeAll {α : Type} [DecidableEq α] {d : α} {l : List (Nat × α)} {n : Nat}
    (h : ∀ c ∈ l, c.1 < n) : ∀ c ∈ Store.writeAll d [] l, c.1 < n := by
  intro c hc
  rcases store_mem_writeAll l [] hc with hl | hnil
  · exact h c hl
  · exact absurd hnil List.not_mem_nil

/-- The pairs that a failed load's residue keeps are below the capacity of the store (log entry 8). -/
theorem addr_lt_of_mem_filter_addr_lt {α : Type} {l : List (Nat × α)} {n : Nat} :
    ∀ c ∈ l.filter (fun c => decide (c.1 < n)), c.1 < n := fun _ hc =>
  of_decide_eq_true (List.mem_filter.mp hc).2

/-- A robot as it is created, with the stride of the image, meets the invariant: its entry point is a
byte, so below `CODE_CAP`, and its stack is empty (70_reset_and_hazards.md R277). -/
theorem newRobot_inv (s : State) (entry : Byte) : RobotInv s (newRobot s.memStride entry) where
  pc_le := by
    have hbyte : entry.toNat < 256 := entry.isLt
    simp only [newRobot, Config.codeCap]
    omega
  sp_le := Nat.zero_le _
  stack_canonical := rfl
  stack_bounded := fun _ hc => absurd hc List.not_mem_nil
  cells_in_range := fun _ hc => absurd hc List.not_mem_nil
  stride_eq := rfl

/-! The two outcomes of a load -/

/-- A load whose checks pass meets the invariant on a build that admits the image. -/
theorem loaded_inv {s : State} {image : List Byte} (hvalid : s.params.valid)
    (hcheck : loadCheck s.params image = none) (hadmits : s.params.admits (imageMemSize image)) :
    MachineInv (s.loaded image) := by
  obtain ⟨hlen, -, -, hrobots, hmem, -, hparse⟩ := loadCheck_eq_none_iff.mp hcheck
  obtain ⟨recs, hrecs⟩ := Option.ne_none_iff_exists'.mp hparse
  have hrec : ∀ c ∈ recs, c.1 < Config.heapCap := fun c hc =>
    lt_of_lt_of_le (addr_lt_of_mem_imageRecords hrecs c hc) hmem
  exact
    { params_valid := hvalid
      stackCap_admits := fun _ _ => hadmits
      code_canonical := memory_ofBytes_wf image
      code_bounded := fun _ hc => lt_of_lt_of_le (memory_mem_ofBytes hc) hlen
      heap_canonical := store_writeAll_wf _ _ rfl
      heap_bounded := by
        rw [loaded_heap s hrecs]
        exact addr_lt_of_mem_writeAll hrec
      len_le := hlen
      memSize_le := hmem
      robotCount_le := hrobots
      entry_length := by simp [State.loaded, imageEntries]
      robots_length := by simp [State.loaded, imageEntries]
      robots_inv := by
        intro r hr
        obtain ⟨entry, -, rfl⟩ := List.mem_map.mp hr
        exact newRobot_inv (s.loaded image) entry
      next_le := Nat.zero_le _
      halted_rising := List.Pairwise.nil
      halted_halted := fun _ hk => absurd hk List.not_mem_nil
      fault_iff := by simp [State.loaded]
      done_halted := fun h => by cases h }

/-- A failed load meets the invariant, whatever the free values it leaves (log entry 8). -/
theorem loadFailed_inv {s : State} (k : FaultKind) (hvalid : s.params.valid) :
    MachineInv (s.loadFailed k) where
  params_valid := hvalid
  stackCap_admits := fun _ h => absurd rfl h
  code_canonical := store_writeAll_wf _ _ rfl
  code_bounded := addr_lt_of_mem_writeAll addr_lt_of_mem_filter_addr_lt
  heap_canonical := store_writeAll_wf _ _ rfl
  heap_bounded := addr_lt_of_mem_writeAll addr_lt_of_mem_filter_addr_lt
  len_le := Nat.min_le_right _ _
  memSize_le := Nat.min_le_right _ _
  robotCount_le := Nat.min_le_right _ _
  entry_length := by simp [State.loadFailed]
  robots_length := by simp [State.loadFailed]
  robots_inv := fun _ hr => absurd hr List.not_mem_nil
  next_le := Nat.zero_le _
  halted_rising := List.Pairwise.nil
  halted_halted := fun _ hk => absurd hk List.not_mem_nil
  fault_iff := by simp [State.loadFailed]
  done_halted := fun h => by cases h

/-! The obligations -/

/-- Settles O39, by the two outcomes of a load. -/
theorem loadMeetsTheInvariant : Obligations.LoadMeetsTheInvariant := by
  intro s image hvalid hadmits
  rcases load_cases s image with ⟨k, -, hload⟩ | ⟨hcheck, hload⟩
  · rw [hload]
    exact loadFailed_inv k hvalid
  · rw [hload]
    exact loaded_inv hvalid hcheck (hadmits ((load_sched_running_iff s image).mpr hcheck))

/-- Settles O56: the default `STACK_CAP` is `HEAP_CAP`, the most the fifth load check lets through. -/
theorem defaultParametersAdmitEveryImage : Obligations.DefaultParametersAdmitEveryImage := by
  refine ⟨rfl, rfl, rfl, rfl, by decide, fun s image hparams hrunning => ?_⟩
  have hcheck : loadCheck s.params image = none := (load_sched_running_iff s image).mp hrunning
  obtain ⟨-, -, -, -, hmem, -, -⟩ := loadCheck_eq_none_iff.mp hcheck
  rw [hparams]
  exact hmem

end Sys2Proof.Proofs
end

section
/-!
PROOFS. What every tick keeps: rules for the result of a tick's body, one per shared operation, and
that only HALT writes a running flag (O45).
-/

namespace Sys2Proof.Proofs

open Sys2Proof.Machine Sys2Proof.Safety Sys2Proof.Laws

/-! Rules for the result of a tick -/

/-- The result of a tick meets `done` where it completes, with the registers and the heap it leaves,
and `raised` where it raises, with the heap it leaves. -/
def TickMeets (done : Robot → Memory → Prop) (raised : Memory → Prop) : TickResult → Prop
  | .completed r heap => done r heap
  | .raised _ heap => raised heap

section Rules
variable {done : Robot → Memory → Prop} {raised : Memory → Prop}

@[simp] theorem tickMeets_completed {r : Robot} {heap : Memory} :
    TickMeets done raised (.completed r heap) ↔ done r heap := Iff.rfl

@[simp] theorem tickMeets_raised {k : FaultKind} {heap : Memory} :
    TickMeets done raised (.raised k heap) ↔ raised heap := Iff.rfl

/-- An operand check before the rest of a body (44_stack_alu.md R170). -/
theorem tickMeets_check {c : Prop} [Decidable c] {k : FaultKind} {heap : Memory} {res : TickResult}
    (hraised : raised heap) (hrest : ¬c → TickMeets done raised res) :
    TickMeets done raised (if c then .raised k heap else res) := by
  split
  · exact hraised
  · exact hrest ‹_›

theorem binaryTick_meets {f : Cell → Cell → Cell} {s : State} {r : Robot} (hraised : raised s.heap)
    (hdone : 2 ≤ r.sp →
      done ((r.setCell (r.sp - 2) (f (r.cell (r.sp - 2)) (r.cell (r.sp - 1)))).moved
        (r.sp - 1) (r.pc + 1)) s.heap) :
    TickMeets done raised (binaryTick f s r) := by
  rcases binaryTick_cases f s r with ⟨-, hres⟩ | ⟨hsp, hres⟩ <;> rw [hres]
  · exact hraised
  · exact hdone hsp

theorem divideTick_meets {f : Cell → Cell → Cell} {s : State} {r : Robot} (hraised : raised s.heap)
    (hdone : 2 ≤ r.sp → r.cell (r.sp - 1) ≠ 0 →
      done ((r.setCell (r.sp - 2) (f (r.cell (r.sp - 2)) (r.cell (r.sp - 1)))).moved
        (r.sp - 1) (r.pc + 1)) s.heap) :
    TickMeets done raised (divideTick f s r) := by
  rcases divideTick_cases f s r with ⟨-, hres⟩ | ⟨-, -, hres⟩ | ⟨-, -, hres⟩ | ⟨hsp, hne, hres⟩ <;>
    rw [hres]
  · exact hraised
  · exact hraised
  · exact hraised
  · exact hdone hsp hne

theorem pushTick_meets {v : Cell} {n : Nat} {s : State} {r : Robot} (hraised : raised s.heap)
    (hdone : r.sp + 1 ≤ s.params.stackCap →
      done ((r.setCell r.sp v).moved (r.sp + 1) (r.pc + n)) s.heap) :
    TickMeets done raised (pushTick v n s r) := by
  rcases pushTick_cases v n s r with ⟨-, hres⟩ | ⟨hroom, hres⟩ <;> rw [hres]
  · exact hraised
  · exact hdone hroom

/-- READ replaces its four operands by what it gathers from eight bytes (43_bit_io.md R153). -/
theorem tickBody_read_meets {arg : BitVec 4} {s : State} {r : Robot} (hraised : raised s.heap)
    (hdone : ∀ bytes : List Byte, bytes.length = 8 → 4 ≤ r.sp →
      done ((r.setCell (r.sp - 4) (gathered s.params bytes)).moved (r.sp - 3) (r.pc + 1)) s.heap) :
    TickMeets done raised (tickBody (.read arg) s r) := by
  refine tickMeets_check hraised fun hsp => ?_
  split
  · exact hraised
  · rename_i bytes hbytes
    obtain ⟨-, rfl⟩ := gatherVisits_eq_some.mp hbytes
    exact hdone _ rfl (by omega)

/-- The visits of `l` are all inside the heap (20_memory.md R63). -/
abbrev VisitsInHeap (s : State) (off : Nat → Int) (l : List Nat) : Prop :=
  ∀ i ∈ l, 0 ≤ off i ∧ off i < s.memSize

/-- WRITE leaves the heap of the visits that precede the first out of range, all of them or not
(43_bit_io.md R152). -/
theorem tickBody_write_meets {s : State} {r : Robot} (hunderflow : raised s.heap)
    (hdone : ∀ off bit l, VisitsInHeap s off l → 5 ≤ r.sp →
      done (r.moved (r.sp - 5) (r.pc + 1)) (drawnHeap off bit l s.heap))
    (hraised : ∀ off bit l, VisitsInHeap s off l →
      raised (drawnHeap off bit l s.heap)) :
    TickMeets done raised (tickBody .write s r) := by
  refine tickMeets_check hunderflow fun hsp => ?_
  rcases drawVisits_spec s (plotOffset r.plotVector r.stride)
    (drawnByte s.params.cellBits (r.cell (r.sp - 5))) visits s.heap with
    ⟨hall, hres⟩ | ⟨before, _, _, -, hbefore, -, hres⟩ <;> rw [hres]
  · exact hdone _ _ _ hall (by omega)
  · exact hraised _ _ _ hbefore

/-- JMP.L reads its escape byte first (45_control.md R201). -/
theorem tickBody_jmpL_meets {target : Byte} {s : State} {r : Robot} (hraised : raised s.heap)
    (hdone : done (r.moved r.sp target.toNat) s.heap) :
    TickMeets done raised (tickBody (.jmpL target) s r) := by
  simp only [tickBody]
  split
  · exact hraised
  · exact hdone

/-- JZ.L reads its escape byte after its operand check (45_control.md R202). -/
theorem tickBody_jzL_meets {target : Byte} {s : State} {r : Robot} (hraised : raised s.heap)
    (hdone : r.pc + 1 < s.len →
      TickMeets done raised (jumpIfZeroTick target.toNat 2 s r)) :
    TickMeets done raised (tickBody (.jzL target) s r) := by
  refine tickMeets_check hraised fun _ => ?_
  split
  · exact hraised
  · exact hdone (codeRead_eq_some.mp ‹_›).1

/-- PUSH reads its escape byte, then the heap, before it asks for room (41_memory_push.md R130). -/
theorem tickBody_push_meets {addr : BitVec 15} {s : State} {r : Robot} (hraised : raised s.heap)
    (hdone : ∀ v : Byte, r.pc + 1 < s.len → r.sp + 1 ≤ s.params.stackCap →
      done ((r.setCell r.sp (zext v.toNat)).moved (r.sp + 1) (r.pc + 2)) s.heap) :
    TickMeets done raised (tickBody (.push addr) s r) := by
  simp only [tickBody]
  split
  · exact hraised
  · rename_i hescape
    split
    · exact hraised
    · exact pushTick_meets hraised (hdone _ (codeRead_eq_some.mp hescape).1)

/-- A reserved opcode byte raises or passes by, as the build's policy says (40_execution_cycle.md
R117). -/
theorem tickBody_reservedOp_meets {op arg : BitVec 4} {s : State} {r : Robot}
    (hraised : raised s.heap) (hdone : done (r.moved r.sp (r.pc + 1)) s.heap) :
    TickMeets done raised (tickBody (.reservedOp op arg) s r) := by
  simp only [tickBody]
  split
  · exact hraised
  · exact hdone

end Rules

/-! Only HALT writes a running flag -/

/-- An instruction other than HALT leaves its own robot's running flag as it was (10_state.md
R32). -/
theorem tickBody_keeps_running {i : Instr} (hi : ∀ arg, i ≠ .halt arg) (s : State) (r : Robot) :
    TickMeets (fun r' _ => r'.running = r.running) (fun _ => True) (tickBody i s r) := by
  cases i with
  | halt arg => exact absurd rfl (hi arg)
  | read => exact tickBody_read_meets trivial fun _ _ _ => rfl
  | write => exact tickBody_write_meets trivial (fun _ _ _ _ _ => rfl) fun _ _ _ _ => trivial
  | sub | add | mul | and | or => exact binaryTick_meets trivial fun _ => rfl
  | div | mod => exact divideTick_meets trivial fun _ _ => rfl
  | not | pop | swap | jzS => exact tickMeets_check trivial fun _ => rfl
  | dup => exact tickMeets_check trivial fun _ => pushTick_meets trivial fun _ => rfl
  | reservedStack => exact trivial
  | jmpS => exact rfl
  | jmpL => exact tickBody_jmpL_meets trivial rfl
  | jzL => exact tickBody_jzL_meets trivial fun _ => rfl
  | reservedOp => exact tickBody_reservedOp_meets trivial rfl
  | push => exact tickBody_push_meets trivial fun _ _ _ => rfl

/-- New registers with the old running flag leave the flags of a robot table as they were. -/
theorem map_running_set {robots : List Robot} {j : Nat} {r r' : Robot} (hj : robots[j]? = some r)
    (hr : r'.running = r.running) :
    ((robots.set j r').map fun q => q.running) = robots.map fun q => q.running := by
  obtain ⟨hlt, rfl⟩ := List.getElem?_eq_some_iff.mp hj
  rw [List.map_set, hr, ← List.getElem_map (fun q : Robot => q.running), List.set_getElem_self]
  simpa using hlt

/-- Settles O45: an instruction replaces the registers of one robot by its body's, which keeps the
running flag. -/
theorem onlyHaltWritesRunning : Obligations.OnlyHaltWritesRunning := by
  intro i s t hexec hi
  rw [exec_eq_runTick] at hexec
  obtain ⟨j, r, hdue, ⟨r', heap, hbody, rfl⟩ | ⟨k, heap, -, rfl⟩⟩ := runTick_cases hexec
  · have hkeeps := tickBody_keeps_running hi s r
    rw [hbody, tickMeets_completed] at hkeeps
    exact map_running_set hdue.1 hkeeps
  · rfl

end Sys2Proof.Proofs
end

section
/-!
PROOFS. What every step keeps: the code store and the configuration (O42), the machine
invariant (O38).
-/

namespace Sys2Proof.Proofs

open Sys2Proof.Machine Sys2Proof.Safety Sys2Proof.Laws

/-! The end of a pass -/

/-- Everything the end of a pass can do: the next pass, or the end of the run
(60_exceptions.md R242). -/
theorem endPass_cases (s : State) :
    ((∃ r ∈ s.robots, r.running = true) ∧
        s.endPass =
          { s with
            notices := s.notices ++ s.haltedInPass.map s.haltNotice
            haltedInPass := []
            next := 0 }) ∨
      ((∀ r ∈ s.robots, r.running = false) ∧
        s.endPass =
          { s with
            notices := s.notices ++ s.haltedInPass.map s.haltNotice
            haltedInPass := []
            sched := .done }) := by
  unfold State.endPass
  split
  · rename_i hany
    exact .inl ⟨List.any_eq_true.mp hany, rfl⟩
  · rename_i hany
    exact .inr ⟨by simpa using hany, rfl⟩

/-! The code store and the configuration -/

/-- `t` has the code store, the configuration registers, the parameters and the count of loads of
`s`. -/
def SameProgram (s t : State) : Prop :=
  t.code = s.code ∧ t.len = s.len ∧ t.memSize = s.memSize ∧ t.memStride = s.memStride ∧
    t.dataSegOffset = s.dataSegOffset ∧ t.robotCount = s.robotCount ∧ t.entry = s.entry ∧
    t.codeSize = s.codeSize ∧ t.params = s.params ∧ t.loads = s.loads

theorem sameProgram_refl (s : State) : SameProgram s s :=
  ⟨rfl, rfl, rfl, rfl, rfl, rfl, rfl, rfl, rfl, rfl⟩

theorem sameProgram_completeTick (s : State) (j : Nat) (r : Robot) (heap : Memory) :
    SameProgram s (s.completeTick j r heap) := sameProgram_refl s

theorem sameProgram_takeFault (s : State) (j : Nat) (r : Robot) (k : FaultKind) (heap : Memory) :
    SameProgram s (s.takeFault j r k heap) := sameProgram_refl s

theorem sameProgram_endPass (s : State) : SameProgram s s.endPass := by
  rcases endPass_cases s with ⟨-, hend⟩ | ⟨-, hend⟩ <;> rw [hend] <;> exact sameProgram_refl s

/-- Settles O42, by the cases of a step. -/
theorem codeAndConfigurationNeverChange : Obligations.CodeAndConfigurationNeverChange := by
  intro s t hstep
  rcases step_cases hstep with ⟨-, rfl⟩ | ⟨-, -, rfl⟩ |
    ⟨-, j, r, -, ⟨-, rfl⟩ | ⟨-, i, -, ⟨r', heap, -, rfl⟩ | ⟨k, heap, -, rfl⟩⟩⟩
  · exact sameProgram_refl t
  · exact sameProgram_endPass s
  · exact sameProgram_takeFault s j r .outOfBounds s.heap
  · exact sameProgram_completeTick s j r' heap
  · exact sameProgram_takeFault s j r k heap

/-! The range of a cell -/

theorem zero_inRange (w : Nat) : InRange w 0 := by
  constructor <;> simp

/-- A number below 256 is in the range of every cell wider than a byte (00_scope.md R12). -/
theorem zext_inRange {w n : Nat} (hw : 8 < w) (hn : n < 256) : InRange w (zext n) := by
  have hpow : (2 : Int) ^ 8 ≤ 2 ^ (w - 1) := pow_le_pow_right₀ (by norm_num) (by omega)
  constructor <;> simp only [zext] <;> omega

theorem andCells_inRange {w : Nat} (hw : 0 < w) (b a : Cell) : InRange w (andCells w b a) :=
  toInt_inRange hw _

theorem orCells_inRange {w : Nat} (hw : 0 < w) (b a : Cell) : InRange w (orCells w b a) :=
  toInt_inRange hw _

theorem notCell_inRange {w : Nat} (hw : 0 < w) (a : Cell) : InRange w (notCell w a) :=
  toInt_inRange hw _

/-- A remainder lies between 0 and the dividend, so in the dividend's range. -/
theorem modCells_inRange {w : Nat} {b a : Cell} (ha : a ≠ 0) (hb : InRange w b) :
    InRange w (modCells b a) := by
  obtain ⟨-, habs, hnonneg, hnonpos⟩ := trem_facts b ha
  change InRange w (b - a * Int.tdiv b a)
  obtain ⟨hlo, hhi⟩ := hb
  rcases le_total 0 b with h | h
  · have := hnonneg h
    rw [abs_of_nonneg this, abs_of_nonneg h] at habs
    constructor <;> omega
  · have := hnonpos h
    rw [abs_of_nonpos this, abs_of_nonpos h] at habs
    constructor <;> omega

/-- One bit of each byte gathers a number of as many bits (43_bit_io.md R153). -/
theorem gatherBits_lt {mode : Config.BitReadMode} (hbit : ∀ c, bitOfByte mode c < 2)
    (bytes : List Byte) : gatherBits mode bytes < 2 ^ bytes.length := by
  induction bytes using List.reverseRecOn with
  | nil => simp [gatherBits]
  | append_singleton bytes c ih =>
    have hstep : gatherBits mode (bytes ++ [c]) =
        gatherBits mode bytes <<< 1 ||| bitOfByte mode c := by
      simp [gatherBits]
    rw [hstep, List.length_append, List.length_singleton]
    refine Nat.or_lt_two_pow ?_ ?_
    · rw [Nat.shiftLeft_eq, pow_one, pow_succ]
      omega
    · have := hbit c
      have := Nat.two_pow_pos bytes.length
      rw [pow_succ]
      omega

theorem bitOfByte_lsb_lt (c : Byte) : bitOfByte .lsb c < 2 := by
  simp only [bitOfByte, BitVec.toNat_and]
  exact Nat.and_lt_two_pow (n := 1) _ (by decide)

theorem bitOfByte_nonzero_lt (c : Byte) : bitOfByte .nonzero c < 2 := by
  simp only [bitOfByte]
  split <;> omega

/-- What READ pushes for its eight bytes is a cell, in every mode (43_bit_io.md R154). -/
theorem gathered_inRange {p : Config.Params} (hp : p.valid) {bytes : List Byte}
    (hlen : bytes.length = 8) : InRange p.cellBits (gathered p bytes) := by
  unfold gathered
  split
  · exact zext_inRange hp (by simpa [hlen] using gatherBits_lt bitOfByte_lsb_lt bytes)
  · exact zext_inRange hp (by simpa [hlen] using gatherBits_lt bitOfByte_nonzero_lt bytes)
  · exact wrap_inRange (by omega) _

/-! The registers of a robot -/

/-- What a store reads as is the default or a value it lists. -/
theorem store_read_eq_default_or_mem {α : Type} (d : α) (m : List (Nat × α)) (a : Nat) :
    Store.read d m a = d ∨ (a, Store.read d m a) ∈ m := by
  induction m with
  | nil => exact .inl rfl
  | cons c rest ih =>
    obtain ⟨k, v⟩ := c
    by_cases hk : k = a
    · simp [Store.read, hk]
    · simpa [Store.read, hk, Ne.symm hk] using ih

section RobotInv
variable {s : State} {r : Robot}

/-- Every cell of a stack, listed or not, is in range. -/
theorem robotInv_cell_inRange (hr : RobotInv s r) (k : Nat) :
    InRange s.params.cellBits (r.cell k) := by
  rcases store_read_eq_default_or_mem (0 : Cell) r.stack k with hzero | hmem
  · rw [Robot.cell, hzero]
    exact zero_inRange _
  · exact hr.cells_in_range _ hmem

theorem robotInv_moved (hr : RobotInv s r) {sp pc : Nat} (hsp : sp ≤ s.params.stackCap)
    (hpc : pc ≤ Config.codeCap) : RobotInv s (r.moved sp pc) :=
  { hr with pc_le := hpc, sp_le := hsp }

theorem robotInv_setCell (hr : RobotInv s r) {k : Nat} {v : Cell} (hk : k < s.params.stackCap)
    (hv : InRange s.params.cellBits v) : RobotInv s (r.setCell k v) :=
  { hr with
    stack_canonical := setCell_wf hr.stack_canonical
    stack_bounded := fun c hc => by
      rcases store_mem_write hc with rfl | hc
      · exact hk
      · exact hr.stack_bounded c hc
    cells_in_range := fun c hc => by
      rcases store_mem_write hc with rfl | hc
      · exact hv
      · exact hr.cells_in_range c hc }

theorem robotInv_halted (hr : RobotInv s r) {pc : Nat} (hpc : pc ≤ Config.codeCap) :
    RobotInv s { r with running := false, pc := pc } :=
  { hr with pc_le := hpc }

/-- What holds of a robot speaks of no state but the parameters and the stride of the image. -/
theorem robotInv_of_sameProgram {t : State} (ht : SameProgram s t) (hr : RobotInv s r) :
    RobotInv t r := by
  obtain ⟨-, -, -, hstride, -, -, -, -, hparams, -⟩ := ht
  exact
    { pc_le := hr.pc_le
      sp_le := hparams ▸ hr.sp_le
      stack_canonical := hr.stack_canonical
      stack_bounded := hparams ▸ hr.stack_bounded
      cells_in_range := hparams ▸ hr.cells_in_range
      stride_eq := hstride ▸ hr.stride_eq }

end RobotInv

/-! The heap -/

/-- What holds of the heap of every state of a run. -/
def HeapInv (heap : Memory) : Prop := heap.wf = true ∧ ∀ c ∈ heap, c.1 < Config.heapCap

theorem machineInv_heap {s : State} (h : MachineInv s) : HeapInv s.heap :=
  ⟨h.heap_canonical, h.heap_bounded⟩

/-- Stores at visits in range keep the heap canonical and bounded (20_memory.md R63). -/
theorem heapInv_drawnHeap {s : State} (hsize : s.memSize ≤ Config.heapCap) {heap : Memory}
    (hheap : HeapInv heap) {off : Nat → Int} (bit : Nat → Byte) {l : List Nat}
    (hl : VisitsInHeap s off l) : HeapInv (drawnHeap off bit l heap) := by
  obtain ⟨hwf, hbounded⟩ := hheap
  refine ⟨drawnHeap_wf l hwf, fun c hc => ?_⟩
  rcases mem_drawnHeap l hc with hc | ⟨i, hi, rfl⟩
  · exact hbounded c hc
  · have := hl i hi
    simp only
    omega

/-! One tick -/

/-- A tick's result leaves a robot and a heap that meet the invariant. -/
abbrev TickInv (s : State) : TickResult → Prop :=
  TickMeets (fun r heap => RobotInv s r ∧ HeapInv heap) HeapInv

section Tick
variable {s : State} {r : Robot}

theorem binaryTick_inv {f : Cell → Cell → Cell} (hf : ∀ b a, InRange s.params.cellBits (f b a))
    (hr : RobotInv s r) (hheap : HeapInv s.heap) (hpc : r.pc < Config.codeCap) :
    TickInv s (binaryTick f s r) :=
  binaryTick_meets hheap fun hsp =>
    have hcap := hr.sp_le
    ⟨robotInv_moved (robotInv_setCell hr (by omega) (hf _ _)) (by omega) hpc, hheap⟩

theorem divideTick_inv {f : Cell → Cell → Cell}
    (hf : ∀ b a, a ≠ 0 → InRange s.params.cellBits b → InRange s.params.cellBits (f b a))
    (hr : RobotInv s r) (hheap : HeapInv s.heap) (hpc : r.pc < Config.codeCap) :
    TickInv s (divideTick f s r) :=
  divideTick_meets hheap fun hsp hne =>
    have hcap := hr.sp_le
    have hv := hf _ _ hne (robotInv_cell_inRange hr _)
    ⟨robotInv_moved (robotInv_setCell hr (by omega) hv) (by omega) hpc, hheap⟩

theorem jumpIfZeroTick_inv {target len : Nat} (htarget : target ≤ Config.codeCap)
    (hlen : r.pc + len ≤ Config.codeCap) (hr : RobotInv s r) (hheap : HeapInv s.heap) :
    TickInv s (jumpIfZeroTick target len s r) := by
  have hcap := hr.sp_le
  refine ⟨robotInv_moved hr (by omega) ?_, hheap⟩
  split
  · exact htarget
  · exact hlen

/-- A jump target of 4 or 8 bits is below `CODE_CAP` (45_control.md R201, R203). -/
theorem target_le_codeCap {n : Nat} (hn : n ≤ 10) (target : BitVec n) :
    target.toNat ≤ Config.codeCap :=
  le_of_lt (lt_of_lt_of_le target.isLt (Nat.pow_le_pow_right Nat.two_pos hn))

/-- Every instruction fetched inside the image keeps its robot and the heap in the invariant. -/
theorem tickBody_inv (h : MachineInv s) (hr : RobotInv s r) (hfetch : r.pc < s.len) (i : Instr) :
    TickInv s (tickBody i s r) := by
  have hvalid : 8 < s.params.cellBits := h.params_valid
  have hw : 0 < s.params.cellBits := by omega
  have hheap := machineInv_heap h
  have hlen := h.len_le
  have hcap := hr.sp_le
  have hpc : r.pc + 1 ≤ Config.codeCap := by omega
  have hdrawn : ∀ off bit l, VisitsInHeap s off l →
      HeapInv (drawnHeap off bit l s.heap) := fun _ bit _ =>
    heapInv_drawnHeap h.memSize_le hheap bit
  cases i with
  | halt => exact ⟨robotInv_halted hr hpc, hheap⟩
  | read =>
    refine tickBody_read_meets hheap fun bytes hbytes hsp => ⟨?_, hheap⟩
    exact robotInv_moved (robotInv_setCell hr (by omega) (gathered_inRange hvalid hbytes))
      (by omega) hpc
  | write =>
    exact tickBody_write_meets hheap
      (fun off bit l hl _ => ⟨robotInv_moved hr (by omega) hpc, hdrawn off bit l hl⟩) hdrawn
  | sub | add | mul => exact binaryTick_inv (fun _ _ => wrap_inRange hw _) hr hheap hpc
  | div => exact divideTick_inv (fun _ _ _ _ => wrap_inRange hw _) hr hheap hpc
  | mod => exact divideTick_inv (fun _ _ => modCells_inRange) hr hheap hpc
  | and => exact binaryTick_inv (andCells_inRange hw) hr hheap hpc
  | or => exact binaryTick_inv (orCells_inRange hw) hr hheap hpc
  | not =>
    refine tickMeets_check hheap fun hsp => ⟨?_, hheap⟩
    exact robotInv_moved (robotInv_setCell hr (by omega) (notCell_inRange hw _)) hcap hpc
  | pop => exact tickMeets_check hheap fun _ => ⟨robotInv_moved hr (by omega) hpc, hheap⟩
  | swap =>
    refine tickMeets_check hheap fun hsp => ⟨?_, hheap⟩
    have htop :=
      robotInv_setCell hr (k := r.sp - 1) (by omega) (robotInv_cell_inRange hr (r.sp - 2))
    exact robotInv_moved (robotInv_setCell htop (by omega) (robotInv_cell_inRange hr _)) hcap hpc
  | dup =>
    refine tickMeets_check hheap fun _ => pushTick_meets hheap fun hroom => ⟨?_, hheap⟩
    exact robotInv_moved (robotInv_setCell hr hroom (robotInv_cell_inRange hr _)) hroom hpc
  | reservedStack => exact hheap
  | jmpS target =>
    exact ⟨robotInv_moved hr hcap (target_le_codeCap (by decide) target), hheap⟩
  | jmpL target =>
    exact tickBody_jmpL_meets hheap
      ⟨robotInv_moved hr hcap (target_le_codeCap (by decide) target), hheap⟩
  | jzS target =>
    exact tickMeets_check hheap fun _ =>
      jumpIfZeroTick_inv (target_le_codeCap (by decide) target) hpc hr hheap
  | jzL target =>
    exact tickBody_jzL_meets hheap fun hescape =>
      jumpIfZeroTick_inv (target_le_codeCap (by decide) target) (by omega) hr hheap
  | reservedOp => exact tickBody_reservedOp_meets hheap ⟨robotInv_moved hr hcap hpc, hheap⟩
  | push =>
    refine tickBody_push_meets hheap fun v hescape hroom => ⟨?_, hheap⟩
    exact robotInv_moved (robotInv_setCell hr hroom (zext_inRange hvalid v.isLt)) hroom (by omega)

end Tick

/-! The schedule -/

section Step
variable {s : State} {j : Nat} {r : Robot}

/-- No robot to report is at or after the one that is due (60_exceptions.md R243). -/
theorem halted_lt_of_due (h : MachineInv s) (hdue : Due s j r) {k : Nat} (hk : k ∈ s.haltedInPass) :
    k < j := by
  obtain ⟨-, -, hnext, -⟩ := hdue
  obtain ⟨hbefore, -⟩ := h.halted_halted k hk
  exact lt_of_lt_of_le hbefore hnext

/-- After a completed tick of the robot that is due, the robots to report are those of before and,
where it halted, itself. -/
theorem mem_haltedInPass_completeTick {r' : Robot} {heap : Memory} {k : Nat} :
    k ∈ (s.completeTick j r' heap).haltedInPass ↔
      (k = j ∧ r'.running = false) ∨ k ∈ s.haltedInPass := by
  cases hrun : r'.running <;> simp [hrun]

/-- A completed tick that leaves its robot and the heap in the invariant keeps it. -/
theorem completeTick_inv (h : MachineInv s) (hs : s.sched = .running) (hdue : Due s j r)
    {r' : Robot} {heap : Memory} (hr' : RobotInv s r') (hheap : HeapInv heap) :
    MachineInv (s.completeTick j r' heap) :=
  { h with
    heap_canonical := hheap.1
    heap_bounded := hheap.2
    robots_length := List.length_set.trans h.robots_length
    robots_inv := fun q hq => by
      refine robotInv_of_sameProgram (sameProgram_completeTick s j r' heap) ?_
      rcases List.mem_or_eq_of_mem_set hq with hq | rfl
      · exact h.robots_inv q hq
      · exact hr'
    next_le := by
      have hlt := due_lt hdue
      simpa using hlt
    halted_rising := by
      rw [completeTick_haltedInPass]
      split
      · exact h.halted_rising
      · exact setInsert_rising h.halted_rising
    halted_halted := fun k hk => by
      rcases mem_haltedInPass_completeTick.mp hk with ⟨rfl, hhalted⟩ | hk
      · simp [due_lt hdue, hhalted]
      · have hkj := halted_lt_of_due h hdue hk
        obtain ⟨-, hhalted⟩ := h.halted_halted k hk
        refine ⟨Nat.lt_succ_of_lt hkj, ?_⟩
        rwa [completeTick_robots, List.getElem?_set_ne hkj.ne']
    done_halted := fun hdone => absurd (hs.symm.trans hdone) (by decide) }

/-- A fault taken in a run keeps the invariant, whatever robot raised it. -/
theorem takeFault_inv (h : MachineInv s) (hs : s.sched = .running) {k : FaultKind} {heap : Memory}
    (hheap : HeapInv heap) : MachineInv (s.takeFault j r k heap) :=
  { h with
    stackCap_admits := fun _ _ => h.stackCap_admits (by simp [hs]) (by simp [hs])
    heap_canonical := hheap.1
    heap_bounded := hheap.2
    robots_length := by simpa [hs] using h.robots_length
    robots_inv := fun q hq =>
      robotInv_of_sameProgram (sameProgram_takeFault s j r k heap) (h.robots_inv q hq)
    fault_iff := by simp
    done_halted := fun hdone => by cases hdone }

/-- The end of a pass keeps the invariant. -/
theorem endPass_inv (h : MachineInv s) (hs : s.sched = .running) : MachineInv s.endPass := by
  have hrobots : ∀ q ∈ s.robots, RobotInv s.endPass q := fun q hq =>
    robotInv_of_sameProgram (sameProgram_endPass s) (h.robots_inv q hq)
  rcases endPass_cases s with ⟨-, hend⟩ | ⟨hhalted, hend⟩ <;> rw [hend] at hrobots ⊢
  · exact
      { h with
        robots_inv := hrobots
        next_le := Nat.zero_le _
        halted_rising := List.Pairwise.nil
        halted_halted := fun _ hk => absurd hk List.not_mem_nil }
  · exact
      { h with
        stackCap_admits := fun _ _ => h.stackCap_admits (by simp [hs]) (by simp [hs])
        robots_length := by simpa [hs] using h.robots_length
        robots_inv := hrobots
        halted_rising := List.Pairwise.nil
        halted_halted := fun _ hk => absurd hk List.not_mem_nil
        fault_iff := by simpa [hs] using h.fault_iff
        done_halted := fun _ => hhalted }

end Step

/-- Settles O38, by the cases of a step: a tick's body keeps its robot and the heap in the invariant,
and completing it, taking its fault and ending a pass keep the rest. -/
theorem stepKeepsTheInvariant : Obligations.StepKeepsTheInvariant := by
  intro s t h hstep
  rcases step_cases hstep with ⟨-, rfl⟩ | ⟨hs, -, rfl⟩ |
    ⟨hs, j, r, hdue, ⟨-, rfl⟩ | ⟨hfetch, i, -, hbody⟩⟩
  · exact h
  · exact endPass_inv h hs
  · exact takeFault_inv h hs (machineInv_heap h)
  · have hkeeps := tickBody_inv h (h.robots_inv r (due_mem hdue)) hfetch i
    rcases hbody with ⟨r', heap, hcompleted, rfl⟩ | ⟨k, heap, hraised, rfl⟩
    · rw [hcompleted, TickInv, tickMeets_completed] at hkeeps
      obtain ⟨hrobot, hheap'⟩ := hkeeps
      exact completeTick_inv h hs hdue hrobot hheap'
    · rw [hraised, TickInv, tickMeets_raised] at hkeeps
      exact takeFault_inv h hs hkeeps

end Sys2Proof.Proofs
end

section
/-!
PROOFS. Only WRITE changes the heap (O47).
-/

namespace Sys2Proof.Proofs

open Sys2Proof.Machine Sys2Proof.Safety Sys2Proof.Laws

/-- The body of an instruction other than WRITE leaves the heap it was given, completed or raised
(20_memory.md R52). -/
theorem tickBody_keeps_heap {i : Instr} (hi : i ≠ .write) (s : State) (r : Robot) :
    TickMeets (fun _ heap => heap = s.heap) (fun heap => heap = s.heap) (tickBody i s r) := by
  cases i with
  | write => exact absurd rfl hi
  | read => exact tickBody_read_meets rfl fun _ _ _ => rfl
  | sub | add | mul | and | or => exact binaryTick_meets rfl fun _ => rfl
  | div | mod => exact divideTick_meets rfl fun _ _ => rfl
  | not | pop | swap | jzS => exact tickMeets_check rfl fun _ => rfl
  | dup => exact tickMeets_check rfl fun _ => pushTick_meets rfl fun _ => rfl
  | halt | jmpS | reservedStack => exact rfl
  | jmpL => exact tickBody_jmpL_meets rfl rfl
  | jzL => exact tickBody_jzL_meets rfl fun _ => rfl
  | reservedOp => exact tickBody_reservedOp_meets rfl rfl
  | push => exact tickBody_push_meets rfl fun _ _ _ => rfl

/-- Settles O47: completing a tick and taking its fault both store the heap its body leaves, which
is the old one. -/
theorem onlyWriteChangesTheHeap : Obligations.OnlyWriteChangesTheHeap := by
  intro i s t hexec hi
  rw [exec_eq_runTick] at hexec
  obtain ⟨_, r, -, ⟨r', heap, hbody, rfl⟩ | ⟨k, heap, hbody, rfl⟩⟩ := runTick_cases hexec
  all_goals
    have hkeeps := tickBody_keeps_heap hi s r
    rw [hbody] at hkeeps
    exact hkeeps

end Sys2Proof.Proofs
end

section
/-!
PROOFS. The encoding: the opcode map, the length rule, and decoding and encoding as inverses of each
other (O1 to O5).
-/

namespace Sys2Proof.Proofs

open Sys2Proof.Machine Sys2Proof.Safety Sys2Proof.Laws

/-! The fields of an opcode byte -/

/-- Two bit fields side by side, read as a number. -/
theorem toNat_append_eq_add {v w : Nat} (hi : BitVec v) (lo : BitVec w) :
    (hi ++ lo).toNat = hi.toNat * 2 ^ w + lo.toNat := by
  rw [BitVec.toNat_append, ← Nat.shiftLeft_add_eq_or_of_lt lo.isLt, Nat.shiftLeft_eq]

/-- A word whose high field is known is that field with some low field after it. -/
theorem exists_append_of_div_eq {v w : Nat} {b : BitVec (v + w)} (hi : BitVec v)
    (h : b.toNat / 2 ^ w = hi.toNat) :
    ∃ lo : BitVec w, b = hi ++ lo ∧ lo.toNat = b.toNat % 2 ^ w := by
  have hlo : (BitVec.ofNat w b.toNat).toNat = b.toNat % 2 ^ w := BitVec.toNat_ofNat ..
  refine ⟨BitVec.ofNat w b.toNat, BitVec.eq_of_toNat_eq ?_, hlo⟩
  rw [toNat_append_eq_add, hlo, ← h, Nat.div_add_mod']

/-- An opcode byte whose `op` nibble is known (30_encoding.md R86). -/
theorem exists_arg_of_op {b0 : Byte} (op : BitVec 4) (h : b0.toNat / 16 = op.toNat) :
    ∃ arg : BitVec 4, b0 = op ++ arg ∧ arg.toNat = b0.toNat % 16 :=
  exists_append_of_div_eq op h

/-- Every byte as its two nibbles (30_encoding.md R86). -/
theorem exists_nibbles (b0 : Byte) :
    ∃ op arg : BitVec 4, b0 = op ++ arg ∧ op.toNat = b0.toNat / 16 ∧ arg.toNat = b0.toNat % 16 := by
  have hop : b0.toNat / 16 = (BitVec.ofNat 4 (b0.toNat / 16)).toNat := by bv_omega
  obtain ⟨arg, hb0, harg⟩ := exists_arg_of_op _ hop
  exact ⟨_, arg, hb0, hop.symm, harg⟩

/-- An opcode byte with bit 7 set holds the seven high bits of an address (30_encoding.md R85). -/
theorem exists_addrHigh_of_le {b0 : Byte} (h : 0x80 ≤ b0.toNat) :
    ∃ hi : BitVec 7, b0 = 1#1 ++ hi ∧ hi.toNat = b0.toNat % 128 := by
  have hlt : b0.toNat < 256 := b0.isLt
  have hbit : b0.toNat / 128 = 1 := by omega
  exact exists_append_of_div_eq (1#1) hbit

theorem bit_seven_of_nibbles (op arg : BitVec 4) : (op ++ arg : Byte).getLsbD 7 = op.getLsbD 3 := by
  rw [BitVec.getLsbD_append]; rfl

theorem high_nibble (op arg : BitVec 4) : (op ++ arg : Byte).extractLsb' 4 4 = op :=
  BitVec.extractLsb'_append_eq_left

theorem low_nibble (op arg : BitVec 4) : (op ++ arg : Byte).extractLsb' 0 4 = arg :=
  BitVec.extractLsb'_append_eq_right

theorem bit_seven_of_push (hi : BitVec 7) : (1#1 ++ hi : Byte).getLsbD 7 = true := by
  rw [BitVec.getLsbD_append]; rfl

/-! The decoder, row by row of the opcode map (30_encoding.md R91) -/

section Rows
variable (arg : BitVec 4) (b1 : Byte)

theorem decodePair_push (hi : BitVec 7) : decodePair (1#1 ++ hi) b1 = .push (hi ++ b1) := by
  have hlow : (1#1 ++ hi : Byte).extractLsb' 0 7 = hi := BitVec.extractLsb'_append_eq_right
  rw [decodePair, if_pos (bit_seven_of_push hi), hlow]

theorem decodePair_halt : decodePair (0x0#4 ++ arg) b1 = .halt arg := by
  rw [decodePair, bit_seven_of_nibbles, high_nibble, low_nibble]; rfl

theorem decodePair_read (h : arg ≠ 1) : decodePair (0x1#4 ++ arg) b1 = .read arg := by
  rw [decodePair, bit_seven_of_nibbles, high_nibble, low_nibble]; exact if_neg h

theorem decodePair_stack : decodePair (0x2#4 ++ arg) b1 = decodeStack arg := by
  rw [decodePair, bit_seven_of_nibbles, high_nibble, low_nibble]; rfl

theorem decodePair_jmpS (h : arg ≠ 15) : decodePair (0x3#4 ++ arg) b1 = .jmpS arg := by
  rw [decodePair, bit_seven_of_nibbles, high_nibble, low_nibble]; exact if_neg h

theorem decodePair_jzS (h : arg ≠ 15) : decodePair (0x4#4 ++ arg) b1 = .jzS arg := by
  rw [decodePair, bit_seven_of_nibbles, high_nibble, low_nibble]; exact if_neg h

theorem decodePair_reservedOp (op : BitVec 4) (h : 5 ≤ op.toNat ∧ op.toNat ≤ 7) :
    decodePair (op ++ arg) b1 = .reservedOp op arg := by
  have hop : op = 5#4 ∨ op = 6#4 ∨ op = 7#4 := by bv_omega
  rw [decodePair, bit_seven_of_nibbles, high_nibble, low_nibble]
  rcases hop with rfl | rfl | rfl <;> rfl

theorem decodeStack_of_le (h : 11 ≤ arg.toNat) : decodeStack arg = .reservedStack arg := by
  revert arg; decide

end Rows

/-- What an opcode byte consists of, one constructor for each top-level group of the opcode map
(30_encoding.md R91). -/
inductive OpcodeRow : Byte → Prop
  | halt (arg : BitVec 4) : OpcodeRow (0x0#4 ++ arg)
  | bitIo (arg : BitVec 4) : OpcodeRow (0x1#4 ++ arg)
  | stack (arg : BitVec 4) : OpcodeRow (0x2#4 ++ arg)
  | jmp (arg : BitVec 4) : OpcodeRow (0x3#4 ++ arg)
  | jz (arg : BitVec 4) : OpcodeRow (0x4#4 ++ arg)
  | reservedOp (op arg : BitVec 4) (h : 5 ≤ op.toNat ∧ op.toNat ≤ 7) : OpcodeRow (op ++ arg)
  | push (hi : BitVec 7) : OpcodeRow (1#1 ++ hi)

/-- Every byte value selects a row (30_encoding.md R94). -/
theorem opcodeRow (b0 : Byte) : OpcodeRow b0 := by
  by_cases hbit : 0x80 ≤ b0.toNat
  · obtain ⟨hi, rfl, -⟩ := exists_addrHigh_of_le hbit
    exact .push hi
  · obtain ⟨op, arg, rfl, hop, -⟩ := exists_nibbles b0
    have hcases : op = 0#4 ∨ op = 1#4 ∨ op = 2#4 ∨ op = 3#4 ∨ op = 4#4 ∨
        (5 ≤ op.toNat ∧ op.toNat ≤ 7) := by bv_omega
    rcases hcases with rfl | rfl | rfl | rfl | rfl | hreserved
    exacts [.halt arg, .bitIo arg, .stack arg, .jmp arg, .jz arg, .reservedOp op arg hreserved]

/-! The length rule (30_encoding.md R84) -/

theorem bit_seven_iff (b0 : Byte) : b0.getLsbD 7 = true ↔ 0x80 ≤ b0.toNat := by
  rw [show b0.getLsbD 7 = b0.msb from rfl, BitVec.msb_eq_decide, decide_eq_true_iff]

theorem lengthOfOpcode_eq_two_iff (b0 : Byte) :
    lengthOfOpcode b0 = 2 ↔ 0x80 ≤ b0.toNat ∨ b0.toNat = 0x3F ∨ b0.toNat = 0x4F := by
  have hop (n : BitVec 4) : b0.extractLsb' 4 4 = n ↔ b0.toNat / 16 % 16 = n.toNat := by
    rw [← BitVec.toNat_inj, BitVec.extractLsb'_toNat, Nat.shiftRight_eq_div_pow]
  have harg (n : BitVec 4) : b0.extractLsb' 0 4 = n ↔ b0.toNat % 16 = n.toNat := by
    rw [← BitVec.toNat_inj, BitVec.extractLsb'_toNat, Nat.shiftRight_zero]
  simp only [lengthOfOpcode, bit_seven_iff, hop, harg, BitVec.reduceToNat]
  split_ifs <;> omega

theorem lengthOfOpcode_le_two (b0 : Byte) : lengthOfOpcode b0 ≤ 2 := by
  unfold lengthOfOpcode
  split_ifs <;> decide

theorem decode_of_length_ne_two {b0 : Byte} (h : lengthOfOpcode b0 ≠ 2) (rest : List Byte) :
    decode (b0 :: rest) = .ok (decodePair b0 0) rest := if_neg h

theorem decode_of_length_two {b0 : Byte} (h : lengthOfOpcode b0 = 2) (b1 : Byte)
    (rest : List Byte) : decode (b0 :: b1 :: rest) = .ok (decodePair b0 b1) rest := if_pos h

theorem decode_missing_escape {b0 : Byte} (h : lengthOfOpcode b0 = 2) :
    decode [b0] = .refused .noEscapeByte := if_pos h

/-- Settles O4: the length rule as numbers, and the decoder on each side of it. -/
theorem lengthComesFromTheOpcodeByteAlone : Obligations.LengthComesFromTheOpcodeByteAlone := by
  intro b0 rest two
  have htwo : lengthOfOpcode b0 = 2 ↔ two := lengthOfOpcode_eq_two_iff b0
  refine ⟨fun hone => ⟨_, decode_of_length_ne_two (mt htwo.mp hone) rest⟩, fun h hrest => ?_,
    fun h hrest => ?_⟩
  · obtain ⟨b1, tail, rfl⟩ := List.exists_cons_of_ne_nil hrest
    exact ⟨_, decode_of_length_two (htwo.mpr h) b1 tail⟩
  · rw [hrest]
    exact decode_missing_escape (htwo.mpr h)

/-! Decoding an encoded instruction -/

/-- The bytes of every well-formed instruction are as many as its opcode byte says
(30_encoding.md R80, R84). -/
theorem encodedLength (i : Instr) : EncodedLength.Statement i := by
  cases i with
  | halt arg => exact EncodedLength.halt arg
  | read arg => exact EncodedLength.read arg
  | write => exact EncodedLength.write
  | sub => exact EncodedLength.sub
  | add => exact EncodedLength.add
  | mul => exact EncodedLength.mul
  | div => exact EncodedLength.div
  | mod => exact EncodedLength.mod
  | and => exact EncodedLength.and
  | or => exact EncodedLength.or
  | not => exact EncodedLength.not
  | pop => exact EncodedLength.pop
  | swap => exact EncodedLength.swap
  | dup => exact EncodedLength.dup
  | reservedStack arg => exact EncodedLength.reservedStack arg
  | jmpS target => exact EncodedLength.jmpS target
  | jmpL target => exact EncodedLength.jmpL target
  | jzS target => exact EncodedLength.jzS target
  | jzL target => exact EncodedLength.jzL target
  | reservedOp op arg => exact EncodedLength.reservedOp op arg
  | push addr => exact EncodedLength.push addr

/-- The two fields of an address, put together again (30_encoding.md R85). -/
theorem addrHigh_append_addrLow (addr : BitVec 15) :
    (addr.extractLsb' 8 7 ++ addr.extractLsb' 0 8 : BitVec 15) = addr :=
  (BitVec.extractLsb'_append_extractLsb'_eq_extractLsb' rfl).trans BitVec.extractLsb'_eq_self

/-- The decoder's answer to the opcode byte of an encoding and its escape byte, where it has one. -/
theorem decodePair_of_encode {i : Instr} (hwf : i.wellFormed = true) {b0 : Byte} {bs : List Byte}
    (h : encode i = b0 :: bs) : decodePair b0 (bs.headD 0) = i := by
  cases i with
  | halt arg => cases h; exact decodePair_halt arg 0
  | read arg => cases h; exact decodePair_read arg 0 (bne_iff_ne.mp hwf)
  | write | sub | add | mul | div | mod | and | or | not | pop | swap | dup | jmpL | jzL =>
    cases h; rfl
  | reservedStack arg =>
    cases h
    exact (decodePair_stack arg 0).trans (decodeStack_of_le arg (of_decide_eq_true hwf))
  | jmpS target => cases h; exact decodePair_jmpS target 0 (bne_iff_ne.mp hwf)
  | jzS target => cases h; exact decodePair_jzS target 0 (bne_iff_ne.mp hwf)
  | reservedOp op arg =>
    cases h
    exact decodePair_reservedOp arg 0 op (by simpa [Instr.wellFormed] using hwf)
  | push addr =>
    cases h
    exact (decodePair_push _ _).trans (congrArg Instr.push (addrHigh_append_addrLow addr))

/-- Settles O1: the opcode byte of an encoding asks for as many bytes as the encoding has, and the
decoder's answer to them is the instruction. -/
theorem decodeOfEncodeGivesTheInstruction : Obligations.DecodeOfEncodeGivesTheInstruction := by
  intro i rest hwf
  obtain ⟨b0, bs, hencode, hlength⟩ := encodedLength i hwf
  have hpair := decodePair_of_encode hwf hencode
  rw [hencode]
  match bs with
  | [] =>
    have hone : lengthOfOpcode b0 ≠ 2 := by simp [← hlength]
    exact (decode_of_length_ne_two hone rest).trans (by rw [← hpair]; rfl)
  | [b1] => exact (decode_of_length_two hlength.symm b1 rest).trans (by rw [← hpair]; rfl)
  | _ :: _ :: _ =>
    have hle : _ ≤ 2 := hlength ▸ lengthOfOpcode_le_two b0
    simp only [List.length_cons] at hle
    omega

/-- Settles O5: each word is the encoding of its instruction, which decodes (O1). -/
theorem writtenOutWordsDecode : Obligations.WrittenOutWordsDecode := by
  have hdecode := decodeOfEncodeGivesTheInstruction
  exact ⟨hdecode (.push 0x123) [] rfl, hdecode (.push 32767) [] rfl, hdecode (.halt 7) [] rfl,
    hdecode (.read 2) [] rfl, hdecode .write [] rfl, hdecode .div [] rfl,
    hdecode (.reservedStack 15) [] rfl, hdecode (.jmpS 5) [] rfl, hdecode (.jmpL 32) [] rfl,
    hdecode (.jzL 21) [] rfl, hdecode (.reservedOp 5 10) [] rfl⟩

/-! Encoding a decoded instruction -/

theorem decodeStack_wellFormed (arg : BitVec 4) : (decodeStack arg).wellFormed = true := by
  revert arg; decide

theorem encode_decodeStack (arg : BitVec 4) : encode (decodeStack arg) = [0x2#4 ++ arg] := by
  revert arg; decide

/-- A decoded instruction is well formed and is encoded by the opcode byte, with or without the byte
after it. -/
theorem decodePair_spec (b0 b1 : Byte) :
    (decodePair b0 b1).wellFormed = true ∧
      (encode (decodePair b0 b1) = [b0] ∨ encode (decodePair b0 b1) = [b0, b1]) := by
  cases opcodeRow b0 with
  | halt arg => rw [decodePair_halt]; exact ⟨rfl, .inl rfl⟩
  | bitIo arg =>
    by_cases h : arg = 1
    · subst h; exact ⟨rfl, .inl rfl⟩
    · rw [decodePair_read arg b1 h]; exact ⟨bne_iff_ne.mpr h, .inl rfl⟩
  | stack arg =>
    rw [decodePair_stack]; exact ⟨decodeStack_wellFormed arg, .inl (encode_decodeStack arg)⟩
  | jmp arg =>
    by_cases h : arg = 15
    · subst h; exact ⟨rfl, .inr rfl⟩
    · rw [decodePair_jmpS arg b1 h]; exact ⟨bne_iff_ne.mpr h, .inl rfl⟩
  | jz arg =>
    by_cases h : arg = 15
    · subst h; exact ⟨rfl, .inr rfl⟩
    · rw [decodePair_jzS arg b1 h]; exact ⟨bne_iff_ne.mpr h, .inl rfl⟩
  | reservedOp op arg h =>
    rw [decodePair_reservedOp arg b1 op h]
    exact ⟨by simpa [Instr.wellFormed] using h, .inl rfl⟩
  | push hi =>
    have hhigh : (hi ++ b1 : BitVec 15).extractLsb' 8 7 = hi := BitVec.extractLsb'_append_eq_left
    have hlow : (hi ++ b1 : BitVec 15).extractLsb' 0 8 = b1 := BitVec.extractLsb'_append_eq_right
    rw [decodePair_push, encode, hhigh, hlow]
    exact ⟨rfl, .inr rfl⟩

/-- Settles O2: of the two byte lists a decoded instruction can be encoded by, the length that its
opcode byte asks for picks one. -/
theorem encodeOfDecodeGivesTheBytes : Obligations.EncodeOfDecodeGivesTheBytes := by
  intro b0 b1
  obtain ⟨hwf, hencode⟩ := decodePair_spec b0 b1
  obtain ⟨_, _, hbytes, hlength⟩ := encodedLength _ hwf
  refine ⟨hwf, ?_⟩
  rcases hencode with hencode | hencode <;> rw [hencode] at hbytes ⊢ <;> cases hbytes
  · exact (if_neg (by simp [← hlength])).symm
  · exact (if_pos hlength.symm).symm

/-- Where there is a second byte, `decode` answers what `decodePair` does, also for an instruction of
one byte: the answer of `decodePair` is encoded by bytes at the head of the list, and so decodes back
from them (O1). -/
theorem decode_cons_cons (b0 b1 : Byte) (rest : List Byte) :
    ∃ rest', decode (b0 :: b1 :: rest) = .ok (decodePair b0 b1) rest' := by
  obtain ⟨hwf, hencode⟩ := decodePair_spec b0 b1
  have hdecode (after : List Byte) := decodeOfEncodeGivesTheInstruction (decodePair b0 b1) after hwf
  rcases hencode with hencode | hencode <;> rw [hencode] at hdecode
  · exact ⟨_, hdecode (b1 :: rest)⟩
  · exact ⟨_, hdecode rest⟩

/-! The opcode map -/

/-- A row of the map with a field: the byte is the row's `op` and a number, which the field
holds. -/
theorem exists_arg_decodePair {b0 : Byte} {n : Nat} (op : BitVec 4) (row : BitVec 4 → Instr)
    (b1 : Byte) (hn : b0.toNat = op.toNat * 16 + n ∧ n < 16)
    (hrow : ∀ arg : BitVec 4, arg.toNat = n → decodePair (op ++ arg) b1 = row arg) :
    ∃ arg, decodePair b0 b1 = row arg ∧ arg.toNat = n := by
  obtain ⟨arg, rfl, harg⟩ := exists_arg_of_op (b0 := b0) op (by omega)
  have harg : arg.toNat = n := by omega
  exact ⟨arg, hrow arg harg, harg⟩

/-- A row of the map that is one byte. -/
theorem decodePair_of_toNat_eq {b0 b1 : Byte} (n : Byte) (h : b0.toNat = n.toNat) :
    decodePair b0 b1 = decodePair n b1 :=
  congrArg (decodePair · b1) (BitVec.eq_of_toNat_eq h)

/-- Settles O3, clause by clause: the bounds on the byte give its `op` nibble, and the row of the map
gives the instruction. -/
theorem opcodeMapNamesEveryByte : Obligations.OpcodeMapNamesEveryByte := by
  intro b0 b1
  refine ⟨fun h => ?halt, fun h => ?read, decodePair_of_toNat_eq 0x11,
    decodePair_of_toNat_eq 0x20, decodePair_of_toNat_eq 0x21, decodePair_of_toNat_eq 0x22,
    decodePair_of_toNat_eq 0x23, decodePair_of_toNat_eq 0x24, decodePair_of_toNat_eq 0x25,
    decodePair_of_toNat_eq 0x26, decodePair_of_toNat_eq 0x27, decodePair_of_toNat_eq 0x28,
    decodePair_of_toNat_eq 0x29, decodePair_of_toNat_eq 0x2A, fun h => ?reservedStack,
    fun h => ?jmpS, decodePair_of_toNat_eq 0x3F, fun h => ?jzS, decodePair_of_toNat_eq 0x4F,
    fun h => ?reservedOp, fun h => ?push⟩
  case halt =>
    exact exists_arg_decodePair 0x0#4 .halt b1 (by bv_omega) fun arg _ => decodePair_halt arg b1
  case read =>
    exact exists_arg_decodePair 0x1#4 .read b1 (by bv_omega) fun arg harg =>
      decodePair_read arg b1 (by bv_omega)
  case reservedStack =>
    exact exists_arg_decodePair 0x2#4 .reservedStack b1 (by bv_omega) fun arg harg =>
      (decodePair_stack arg b1).trans (decodeStack_of_le arg (by omega))
  case jmpS =>
    exact exists_arg_decodePair 0x3#4 .jmpS b1 (by bv_omega) fun arg harg =>
      decodePair_jmpS arg b1 (by bv_omega)
  case jzS =>
    exact exists_arg_decodePair 0x4#4 .jzS b1 (by bv_omega) fun arg harg =>
      decodePair_jzS arg b1 (by bv_omega)
  case reservedOp =>
    obtain ⟨op, arg, rfl, hop, harg⟩ := exists_nibbles b0
    exact ⟨op, arg, decodePair_reservedOp arg b1 op (by omega), hop, harg⟩
  case push =>
    obtain ⟨hi, hb0, hhi⟩ := exists_addrHigh_of_le h
    have haddr : (hi ++ b1).toNat = hi.toNat * 256 + b1.toNat := toNat_append_eq_add hi b1
    refine ⟨hi ++ b1, hb0 ▸ decodePair_push b1 hi, ?_⟩
    have hfield : hi.toNat = b0.toNat - 0x80 := by bv_omega
    rw [haddr, hfield]

end Sys2Proof.Proofs
end

section
/-!
PROOFS. A fetch word is the next instruction run (O16).
-/

namespace Sys2Proof.Proofs

open Sys2Proof.Machine Sys2Proof.Safety Sys2Proof.Laws

/-- The bytes of a table row are two, and the decoder reads what `decodePair` gives for them. -/
theorem decodeTableWord_eq (nbits w : Nat) :
    ∃ b0 b1, bytesOfTableWord nbits w = [b0, b1] ∧
      decodeTableWord nbits w = some (decodePair b0 b1) := by
  obtain ⟨_, hdecode⟩ := decode_cons_cons (BitVec.ofNat 8 (w % 2 ^ nbits))
    (BitVec.ofNat 8 (w % 2 ^ nbits / 256)) []
  exact ⟨_, _, rfl, by rw [decodeTableWord, bytesOfTableWord, hdecode]⟩

theorem storeCode_code_read (s : State) (a : Nat) (b0 b1 : Byte) :
    (s.storeCode a [b0, b1]).code.read a = b0 ∧
      (s.storeCode a [b0, b1]).code.read (a + 1) = b1 := by
  simp [State.storeCode]

theorem lt_storeCode_len (s : State) (a : Nat) (bytes : List Byte) :
    a < (s.storeCode a bytes).len :=
  lt_of_lt_of_le (Nat.lt_add_of_pos_right Nat.two_pos) (Nat.le_max_right s.len (a + 2))

theorem storeCode_due {s : State} {j : Nat} {r : Robot} (h : Due s j r) (a : Nat)
    (bytes : List Byte) : Due (s.storeCode a bytes) j r := h

/-- A running step, where a robot is due whose opcode byte lies in the image, runs what `decodePair`
reads at its `pc` (40_execution_cycle.md R112, R113). -/
theorem step_eq_exec_decodePair {s : State} {j : Nat} {r : Robot} (hs : s.sched = .running)
    (hdue : Due s j r) (hfetch : r.pc < s.len) :
    step s = exec (decodePair (s.code.read r.pc) (s.code.read (r.pc + 1))) s := by
  have ⟨hj, hr, _⟩ := hdue
  rcases tick_of_running hj hr with ⟨hpast, -⟩ | ⟨-, htick⟩
  · omega
  · rw [step_of_due hs hdue, htick, execFor_of_due hdue]

/-- Two bytes stored at the `pc` of the robot that is due are what the next step runs. -/
theorem step_storeCode {s : State} {j : Nat} {r : Robot} (hs : s.sched = .running)
    (hdue : Due s j r) (b0 b1 : Byte) :
    step (s.storeCode r.pc [b0, b1]) = exec (decodePair b0 b1) (s.storeCode r.pc [b0, b1]) := by
  obtain ⟨hb0, hb1⟩ := storeCode_code_read s r.pc b0 b1
  have hstep := step_eq_exec_decodePair (s := s.storeCode r.pc [b0, b1]) hs
    (storeCode_due hdue r.pc _) (lt_storeCode_len s r.pc _)
  rwa [hb0, hb1] at hstep

/-- Where an instruction is placed: at the `pc` of a robot that is due in a running state, the given
one or one made for it (log entry 13). -/
theorem placeInstruction_eq_storeCode (s : State) (bytes : List Byte) :
    ∃ s' j r, s'.sched = .running ∧ Due s' j r ∧
      s.placeInstruction bytes = s'.storeCode r.pc bytes := by
  have hmade : Due s.withOneRobot 0
      { running := true, pc := fetchSlot, sp := 0, stack := [], stride := s.memStride } :=
    ⟨rfl, rfl, Nat.le_refl 0, fun k hk => absurd hk (Nat.not_lt_zero k)⟩
  unfold State.placeInstruction
  split
  · rename_i j r hs hcurrent
    split
    · exact ⟨s, j, r, hs, current_eq_some.mp hcurrent, rfl⟩
    · exact ⟨_, _, _, rfl, hmade, rfl⟩
  · exact ⟨_, _, _, rfl, hmade, rfl⟩

/-- Settles O16: the two bytes of the word stand at the `pc` of the robot that is due, and the step
runs what they decode to. -/
theorem fetchWordIsRunNext : Obligations.FetchWordIsRunNext := by
  intro s nbits w i hword
  obtain ⟨b0, b1, hbytes, hdecode⟩ := decodeTableWord_eq nbits w
  obtain rfl : decodePair b0 b1 = i := Option.some.inj (hdecode.symm.trans hword)
  obtain ⟨s', j, r, hs, hdue, hplace⟩ := placeInstruction_eq_storeCode s [b0, b1]
  rw [State.withFetchWord, hbytes, hplace]
  exact step_storeCode hs hdue b0 b1

end Sys2Proof.Proofs
end

section
/-!
PROOFS. What a running step runs: the instruction at the `pc` of the robot that is due (O6, O7), the
fault of a fetch past the image (O8), and that every step answers a next state (O11).
-/

namespace Sys2Proof.Proofs

open Sys2Proof.Machine Sys2Proof.Safety Sys2Proof.Laws

/-! The instruction that stands at the pc -/

/-- Settles O6: where there is a second byte, `decode` answers what `decodePair` does, which is what
the step runs. -/
theorem stepRunsTheDecodedInstruction : Obligations.StepRunsTheDecodedInstruction := by
  intro s j r i rest hs hdue hfetch hdecode _
  obtain ⟨_, hpair⟩ := decode_cons_cons (s.code.read r.pc) (s.code.read (r.pc + 1)) []
  obtain ⟨rfl, -⟩ := DecodeResult.ok.inj (hpair.symm.trans hdecode)
  exact step_eq_exec_decodePair hs hdue hfetch

/-- An instruction takes one byte or two (30_encoding.md R80). -/
theorem encode_eq_one_or_two (i : Instr) :
    (∃ b0, encode i = [b0]) ∨ ∃ b0 b1, encode i = [b0, b1] := by
  cases i with
  | jmpL | jzL | push => exact .inr ⟨_, _, rfl⟩
  | _ => exact .inl ⟨_, rfl⟩

/-- Where a code store holds the encoding of an instruction, it is at the head of the two bytes that
stand there. -/
theorem exists_append_of_encode_read {i : Instr} {code : Memory} {pc : Nat}
    (h : ∀ (n : Nat) (b : Byte), (encode i)[n]? = some b → code.read (pc + n) = b) :
    ∃ rest, [code.read pc, code.read (pc + 1)] = encode i ++ rest := by
  rcases encode_eq_one_or_two i with ⟨b0, hencode⟩ | ⟨b0, b1, hencode⟩ <;> rw [hencode] at h ⊢
  · have hb0 : code.read pc = b0 := h 0 b0 rfl
    exact ⟨[code.read (pc + 1)], by rw [hb0]; rfl⟩
  · have hb0 : code.read pc = b0 := h 0 b0 rfl
    have hb1 : code.read (pc + 1) = b1 := h 1 b1 rfl
    exact ⟨[], by rw [hb0, hb1]; rfl⟩

/-- Settles O7: the encoding at the `pc` decodes to its instruction (O1), which the step runs (O6). -/
theorem stepRunsTheInstructionEncodedAtThePc :
    Obligations.StepRunsTheInstructionEncodedAtThePc := by
  intro s j r i hs hdue hfetch hwf hcode
  obtain ⟨rest, hbytes⟩ := exists_append_of_encode_read hcode
  refine stepRunsTheDecodedInstruction s j r i rest hs hdue hfetch ?_ hwf
  rw [hbytes]
  exact decodeOfEncodeGivesTheInstruction i rest hwf

/-! Every branch of a step -/

/-- Outside a run a step does nothing (60_exceptions.md R260). -/
theorem step_of_not_running {s : State} (hs : s.sched ≠ .running) : step s = .next s := by
  unfold step hostStep
  split
  · exact absurd ‹_› hs
  all_goals rfl

/-- A running step, where the opcode byte of the robot that is due lies past the image
(40_execution_cycle.md R112). -/
theorem step_of_fetch_past {s : State} {j : Nat} {r : Robot} (hs : s.sched = .running)
    (hdue : Due s j r) (hpast : s.len ≤ r.pc) :
    step s = .next (s.takeFault j r .outOfBounds s.heap) := by
  have ⟨hj, hr, _⟩ := hdue
  rcases tick_of_running hj hr with ⟨-, htick⟩ | ⟨hfetch, -⟩
  · rw [step_of_due hs hdue, htick]
  · omega

/-- Settles O8: the fault taken writes the record and ends the run, and stores the heap as it was. -/
theorem fetchPastTheImageFaults : Obligations.FetchPastTheImageFaults :=
  fun _ _ _ hs hdue hpast => step_of_fetch_past hs hdue hpast

/-- Where a robot is due, an instruction completes or raises: either way there is a next state. -/
theorem exec_answers_next {s : State} {j : Nat} {r : Robot} (hdue : Due s j r) (i : Instr) :
    ∃ t, exec i s = .next t := by
  cases hbody : tickBody i s r with
  | completed r' heap => exact ⟨_, exec_completed hdue hbody⟩
  | raised k heap => exact ⟨_, exec_raised hdue hbody⟩

/-- Settles O11, by the branches of a step: no run, the end of a pass, a fetch past the image, an
instruction run for a robot that is due. -/
theorem everyStepAnswersANextState : Obligations.EveryStepAnswersANextState := by
  intro s
  by_cases hs : s.sched = .running
  · cases hcurrent : s.current with
    | none => exact ⟨_, step_of_none hs hcurrent⟩
    | some due =>
      obtain ⟨j, r⟩ := due
      have hdue : Due s j r := current_eq_some.mp hcurrent
      rcases Nat.lt_or_ge r.pc s.len with hfetch | hpast
      · rw [step_eq_exec_decodePair hs hdue hfetch]
        exact exec_answers_next hdue _
      · exact ⟨_, step_of_fetch_past hs hdue hpast⟩
  · exact ⟨_, step_of_not_running hs⟩

end Sys2Proof.Proofs
end

section
/-!
PROOFS. What one tick changes: the count and the schedule (O14), its own robot (O43), and, where it
faults, no robot (O41).
-/

namespace Sys2Proof.Proofs

open Sys2Proof.Machine Sys2Proof.Safety Sys2Proof.Laws

/-- Everything a running step can do where a robot is due: complete a tick of that robot, or take its
fault. -/
theorem step_cases_of_due {s t : State} {j : Nat} {r : Robot} (hs : s.sched = .running)
    (hdue : Due s j r) (hstep : step s = .next t) :
    (∃ i r' heap, tickBody i s r = .completed r' heap ∧ t = s.completeTick j r' heap) ∨
      (∃ k heap, t = s.takeFault j r k heap) := by
  rcases step_cases hstep with ⟨hidle, -⟩ | ⟨-, hnone, -⟩ |
    ⟨-, j', r', hdue', ⟨-, ht⟩ | ⟨-, i, -, ⟨q, heap, hbody, ht⟩ | ⟨k, heap, -, ht⟩⟩⟩
  · exact absurd hs hidle
  · simp [current_eq_some.mpr hdue] at hnone
  all_goals obtain ⟨rfl, rfl⟩ := due_unique hdue hdue'
  · exact .inr ⟨_, _, ht⟩
  · exact .inl ⟨i, q, heap, hbody, ht⟩
  · exact .inr ⟨k, heap, ht⟩

/-- Settles O14: completing a tick counts it and moves the schedule on, taking its fault writes the
record and does neither. -/
theorem ticksCountCompletedInstructions : Obligations.TicksCountCompletedInstructions := by
  intro s t j r hs hdue hstep
  rcases step_cases_of_due hs hdue hstep with ⟨_, r', heap, -, rfl⟩ | ⟨k, heap, rfl⟩
  · exact .inl ⟨hs, rfl, rfl, rfl⟩
  · exact .inr ⟨rfl, rfl, rfl, rfl⟩

/-- No instruction writes the stride of its robot (10_state.md R37). -/
theorem tickBody_keeps_stride (i : Instr) (s : State) (r : Robot) :
    TickMeets (fun r' _ => r'.stride = r.stride) (fun _ => True) (tickBody i s r) := by
  cases i with
  | read => exact tickBody_read_meets trivial fun _ _ _ => rfl
  | write => exact tickBody_write_meets trivial (fun _ _ _ _ _ => rfl) fun _ _ _ _ => trivial
  | sub | add | mul | and | or => exact binaryTick_meets trivial fun _ => rfl
  | div | mod => exact divideTick_meets trivial fun _ _ => rfl
  | not | pop | swap | jzS => exact tickMeets_check trivial fun _ => rfl
  | dup => exact tickMeets_check trivial fun _ => pushTick_meets trivial fun _ => rfl
  | reservedStack => exact trivial
  | halt | jmpS => exact rfl
  | jmpL => exact tickBody_jmpL_meets trivial rfl
  | jzL => exact tickBody_jzL_meets trivial fun _ => rfl
  | reservedOp => exact tickBody_reservedOp_meets trivial rfl
  | push => exact tickBody_push_meets trivial fun _ _ _ => rfl

/-- Settles O43: a completed tick writes the table at its own robot alone, with registers of the same
stride, and a fault leaves the table. -/
theorem aTickChangesOnlyItsOwnRobot : Obligations.ATickChangesOnlyItsOwnRobot := by
  intro s t j r hs hdue hstep
  rcases step_cases_of_due hs hdue hstep with ⟨i, r', heap, hbody, rfl⟩ | ⟨k, heap, rfl⟩
  · have hstride := tickBody_keeps_stride i s r
    rw [hbody, tickMeets_completed] at hstride
    exact ⟨fun _ hne => List.getElem?_set_ne hne.symm, r', List.getElem?_set_self (due_lt hdue),
      hstride⟩
  · exact ⟨fun _ _ => rfl, r, hdue.1, rfl⟩

/-- The end of a pass is no fault (60_exceptions.md R242). -/
theorem endPass_not_faulted {s : State} (hs : s.sched = .running) :
    s.endPass.sched ≠ .faulted := by
  rcases endPass_cases s with ⟨-, hend⟩ | ⟨-, hend⟩ <;> rw [hend] <;> simp [hs]

/-- Settles O41, by the cases of a step: only taking a fault ends in FAULTED, and it stores the heap
the instruction left, which is the old one unless the instruction is WRITE. -/
theorem aFaultKeepsEveryRobot : Obligations.AFaultKeepsEveryRobot := by
  intro s t hs hstep hfaulted
  rcases step_cases hstep with ⟨hidle, -⟩ | ⟨-, -, rfl⟩ |
    ⟨-, j, r, hdue, ⟨-, rfl⟩ | ⟨-, i, hi, ⟨r', heap, -, rfl⟩ | ⟨k, heap, hbody, rfl⟩⟩⟩
  · exact absurd hs hidle
  · exact absurd hfaulted (endPass_not_faulted hs)
  · exact ⟨rfl, fun hne => absurd rfl hne⟩
  · exact absurd (hs.symm.trans hfaulted) (by decide)
  · refine ⟨rfl, fun hne => ⟨j, r, hdue, ?_⟩⟩
    rw [← hi]
    by_contra hwrite
    have hkeeps := tickBody_keeps_heap hwrite s r
    rw [hbody] at hkeeps
    exact hne hkeeps

end Sys2Proof.Proofs
end

section
/-!
PROOFS. The reserved top-level opcodes follow the policy of the build (O34).
-/

namespace Sys2Proof.Proofs

open Sys2Proof.Machine Sys2Proof.Safety Sys2Proof.Laws

/-- An instruction whose body raises, in the words of the statements. -/
theorem raises_of_tickBody {i : Instr} {s : State} {j : Nat} {r : Robot} {k : FaultKind}
    {heap : Memory} (hdue : Due s j r) (hbody : tickBody i s r = .raised k heap) :
    Raises i s j r k heap := exec_raised hdue hbody

/-- An instruction whose body completes and leaves its robot running, in the words of the
statements. -/
theorem completes_of_tickBody {i : Instr} {s : State} {j : Nat} {r r' : Robot} {heap : Memory}
    (hdue : Due s j r) (hbody : tickBody i s r = .completed r' heap) (hrun : r'.running = true) :
    Completes i s j r' heap :=
  (exec_completed hdue hbody).trans (congrArg _ (completeTick_of_running hrun))

/-- The bytes 0x50 to 0x7F are the encodings of the reserved opcodes (30_encoding.md R92). -/
theorem decode_reservedOp {b0 : Byte} (hlow : 0x50 ≤ b0.toNat) (hhigh : b0.toNat ≤ 0x7F) :
    ∃ op arg, decode [b0] = .ok (.reservedOp op arg) [] := by
  obtain ⟨op, arg, rfl, hop, -⟩ := exists_nibbles b0
  have hwf : (Instr.reservedOp op arg).wellFormed = true := by
    simp only [Instr.wellFormed, Bool.and_eq_true, decide_eq_true_eq]
    omega
  exact ⟨op, arg, decodeOfEncodeGivesTheInstruction (.reservedOp op arg) [] hwf⟩

/-- Settles O34: the policy picks the branch of the body. -/
theorem reservedOpcodesFollowThePolicy : Obligations.ReservedOpcodesFollowThePolicy := by
  refine ⟨fun _ => decode_reservedOp, fun op arg s j r hdue => ⟨fun hpolicy => ?_, fun hpolicy => ?_⟩⟩
  · exact raises_of_tickBody hdue (by simp only [tickBody, hpolicy])
  · have ⟨_, hrun, _⟩ := hdue
    exact completes_of_tickBody (r' := r.moved r.sp (r.pc + 1)) hdue
      (by simp only [tickBody, hpolicy]) hrun

end Sys2Proof.Proofs
end

section
/-!
PROOFS. A tick reads only its own robot (O44): the body of an instruction is the same in every state
of the same image length, heap size, heap and parameters.
-/

namespace Sys2Proof.Proofs

open Sys2Proof.Machine Sys2Proof.Safety Sys2Proof.Laws

/-- `u` agrees with `s` on all that a tick reads besides its robot's registers. -/
structure SameInputs (s u : State) : Prop where
  len : u.len = s.len
  memSize : u.memSize = s.memSize
  heap : u.heap = s.heap
  params : u.params = s.params

/-! The escape byte: what it holds is the decoder's, and the body asks only whether it lies in the
image -/

section Escape
variable (s : State) (r : Robot)

theorem tickBody_jmpL_eq (target : Byte) :
    tickBody (.jmpL target) s r =
      if s.len ≤ r.pc + 1 then .raised .outOfBounds s.heap
      else .completed (r.moved r.sp target.toNat) s.heap := by
  simp only [tickBody]
  split
  · rw [if_pos (codeRead_eq_none.mp ‹_›)]
  · rw [if_neg (Nat.not_le.mpr (codeRead_eq_some.mp ‹_›).1)]

theorem tickBody_jzL_eq (target : Byte) :
    tickBody (.jzL target) s r =
      if r.sp < 1 then .raised .runtimeStackUnderflow s.heap
      else if s.len ≤ r.pc + 1 then .raised .outOfBounds s.heap
      else jumpIfZeroTick target.toNat 2 s r := by
  refine if_congr Iff.rfl rfl ?_
  split
  · rw [if_pos (codeRead_eq_none.mp ‹_›)]
  · rw [if_neg (Nat.not_le.mpr (codeRead_eq_some.mp ‹_›).1)]

theorem tickBody_push_eq (addr : BitVec 15) :
    tickBody (.push addr) s r =
      if s.len ≤ r.pc + 1 then .raised .outOfBounds s.heap
      else if s.memSize ≤ addr.toNat then .raised .outOfBounds s.heap
      else pushTick (zext (s.heap.read addr.toNat).toNat) 2 s r := by
  simp only [tickBody]
  split
  · rw [if_pos (codeRead_eq_none.mp ‹_›)]
  · rw [if_neg (Nat.not_le.mpr (codeRead_eq_some.mp ‹_›).1)]
    split
    · rename_i hread
      have hout := heapRead_eq_none.mp hread
      rw [if_pos (by omega)]
    · rename_i v hread
      obtain ⟨⟨-, hin⟩, hv⟩ := heapRead_eq_some.mp hread
      rw [if_neg (by omega), ← hv]
      rfl

end Escape

/-! Each shared operation -/

section Congr
variable {s u : State} (h : SameInputs s u)
include h

theorem inHeap_of_sameInputs (a : Int) : u.inHeap a = s.inHeap a := by
  simp only [State.inHeap, h.memSize]

theorem heapRead_of_sameInputs (a : Int) : u.heapRead a = s.heapRead a := by
  simp only [State.heapRead, inHeap_of_sameInputs h, h.heap]

theorem gatherVisits_of_sameInputs (off : Nat → Int) (l : List Nat) :
    gatherVisits u off l = gatherVisits s off l := by
  induction l with
  | nil => rfl
  | cons i rest ih => simp only [gatherVisits, heapRead_of_sameInputs h, ih]

theorem drawVisits_of_sameInputs (off : Nat → Int) (bit : Nat → Byte) (l : List Nat)
    (heap : Memory) : drawVisits u off bit l heap = drawVisits s off bit l heap := by
  induction l generalizing heap with
  | nil => rfl
  | cons i rest ih => simp only [drawVisits, inHeap_of_sameInputs h, ih]

variable (r : Robot)

theorem binaryTick_of_sameInputs (f : Cell → Cell → Cell) : binaryTick f u r = binaryTick f s r := by
  simp only [binaryTick, h.heap]

theorem divideTick_of_sameInputs (f : Cell → Cell → Cell) : divideTick f u r = divideTick f s r := by
  simp only [divideTick, binaryTick_of_sameInputs h, h.heap]

theorem pushTick_of_sameInputs (v : Cell) (n : Nat) : pushTick v n u r = pushTick v n s r := by
  simp only [pushTick, h.params, h.heap]

theorem jumpIfZeroTick_of_sameInputs (target len : Nat) :
    jumpIfZeroTick target len u r = jumpIfZeroTick target len s r := by
  simp only [jumpIfZeroTick, h.heap]

/-- The body of an instruction reads nothing else of the state (40_execution_cycle.md R110). -/
theorem tickBody_of_sameInputs (i : Instr) : tickBody i u r = tickBody i s r := by
  cases i with
  | read => simp only [tickBody, gatherVisits_of_sameInputs h, h.params, h.heap]
  | write => simp only [tickBody, drawVisits_of_sameInputs h, h.params, h.heap]
  | sub | add | mul | and | or => simp only [tickBody, binaryTick_of_sameInputs h, h.params]
  | div | mod => simp only [tickBody, divideTick_of_sameInputs h, h.params]
  | halt | pop | swap | reservedStack | jmpS => simp only [tickBody, h.heap]
  | not | reservedOp => simp only [tickBody, h.params, h.heap]
  | dup => simp only [tickBody, pushTick_of_sameInputs h, h.heap]
  | jzS => simp only [tickBody, jumpIfZeroTick_of_sameInputs h, h.heap]
  | jmpL => simp only [tickBody_jmpL_eq, h.len, h.heap]
  | jzL => simp only [tickBody_jzL_eq, jumpIfZeroTick_of_sameInputs h, h.len, h.heap]
  | push => simp only [tickBody_push_eq, pushTick_of_sameInputs h, h.len, h.memSize, h.heap]

end Congr

/-- Settles O44: the two runs have one body, and what it leaves is stored in the same way at either
robot's place. -/
theorem aTickReadsOnlyItsOwnRobot : Obligations.ATickReadsOnlyItsOwnRobot := by
  intro i s u t v j k r hdue hdue' hlen hmemSize hheap hparams hs hu
  have hsame := tickBody_of_sameInputs ⟨hlen, hmemSize, hheap, hparams⟩ r i
  cases hbody : tickBody i s r with
  | completed r' heap =>
    obtain rfl := Host.Outcome.next.inj ((exec_completed hdue hbody).symm.trans hs)
    obtain rfl := Host.Outcome.next.inj ((exec_completed hdue' (hsame.trans hbody)).symm.trans hu)
    simp [due_lt hdue, due_lt hdue']
  | raised kind heap =>
    obtain rfl := Host.Outcome.next.inj ((exec_raised hdue hbody).symm.trans hs)
    obtain rfl := Host.Outcome.next.inj ((exec_raised hdue' (hsame.trans hbody)).symm.trans hu)
    have ⟨hj, _⟩ := hdue
    have ⟨hk, _⟩ := hdue'
    simp [hj, hk]

end Sys2Proof.Proofs
end

section
/-!
PROOFS. PUSH pushes the heap byte (O17): its encoding, its checks in order, and the robot it leaves.
-/

namespace Sys2Proof.Proofs

open Sys2Proof.Machine Sys2Proof.Safety Sys2Proof.Laws

/-! The encoding -/

/-- A byte with bit 7 set and any byte after it decode to PUSH of the fifteen bits below bit 7: the
last row of the opcode map, in the words of the list decoder (30_encoding.md R85, R91). -/
theorem decode_push {b0 : Byte} (b1 : Byte) (h : 0x80 ≤ b0.toNat) :
    ∃ addr, decode [b0, b1] = .ok (.push addr) [] ∧
      addr.toNat = (b0.toNat - 0x80) * 256 + b1.toNat := by
  obtain ⟨-, -, -, -, -, -, -, -, -, -, -, -, -, -, -, -, -, -, -, -, hpush⟩ :=
    opcodeMapNamesEveryByte b0 b1
  obtain ⟨addr, hpair, haddr⟩ := hpush h
  have htwo : lengthOfOpcode b0 = 2 := (lengthOfOpcode_eq_two_iff b0).mpr (.inl h)
  exact ⟨addr, hpair ▸ decode_of_length_two htwo b1 [], haddr⟩

/-! The shared push, on either side of the full stack -/

section Push
variable {s : State} {r : Robot} (v : Cell) (n : Nat)

theorem pushTick_full (hfull : s.params.stackCap ≤ r.sp) :
    pushTick v n s r = .raised .outOfBounds s.heap := if_pos (by omega)

theorem pushTick_room (hroom : r.sp < s.params.stackCap) :
    pushTick v n s r = .completed ((r.setCell r.sp v).moved (r.sp + 1) (r.pc + n)) s.heap :=
  if_neg (by omega)

end Push

/-- The cell a robot writes holds the value, wherever its registers move. -/
theorem cell_setCell_moved_same (r : Robot) (k sp pc : Nat) (v : Cell) :
    ((r.setCell k v).moved sp pc).cell k = v := by simp

theorem sameCellsBut_setCell_moved (r : Robot) (k sp pc : Nat) (v : Cell) :
    SameCellsBut k r ((r.setCell k v).moved sp pc) := fun i hi => by simp [hi.symm]

/-! The body of PUSH, check by check -/

section Checks
variable {s : State} {r : Robot} {addr : BitVec 15}

theorem tickBody_push_escape_missing (hescape : s.len ≤ r.pc + 1) :
    tickBody (.push addr) s r = .raised .outOfBounds s.heap := by
  rw [tickBody_push_eq, if_pos hescape]

theorem tickBody_push_outside_heap (hescape : r.pc + 1 < s.len) (haddr : s.memSize ≤ addr.toNat) :
    tickBody (.push addr) s r = .raised .outOfBounds s.heap := by
  rw [tickBody_push_eq, if_neg (Nat.not_le.mpr hescape), if_pos haddr]

/-- Past both checks PUSH is the shared push of the heap byte. -/
theorem tickBody_push_eq_pushTick (hescape : r.pc + 1 < s.len) (haddr : addr.toNat < s.memSize) :
    tickBody (.push addr) s r = pushTick (zext (s.heap.read addr.toNat).toNat) 2 s r := by
  rw [tickBody_push_eq, if_neg (Nat.not_le.mpr hescape), if_neg (Nat.not_le.mpr haddr)]

end Checks

/-- Settles O17: the first check that fails names the fault, and past all three the heap byte is
written above the top of the stack. -/
theorem pushPushesTheHeapByte : Obligations.PushPushesTheHeapByte := by
  refine ⟨fun _ b1 => decode_push b1, fun addr s j r hdue =>
    ⟨fun hescape => ?escapeMissing, fun hescape haddr => ?outsideHeap,
      fun hescape haddr hfull => ?full, fun hescape haddr hroom => ?pushed⟩⟩
  case escapeMissing => exact raises_of_tickBody hdue (tickBody_push_escape_missing hescape)
  case outsideHeap => exact raises_of_tickBody hdue (tickBody_push_outside_heap hescape haddr)
  case full =>
    have hbody := tickBody_push_eq_pushTick hescape haddr
    exact raises_of_tickBody hdue (hbody.trans (pushTick_full _ 2 hfull))
  case pushed =>
    have hbody := (tickBody_push_eq_pushTick hescape haddr).trans (pushTick_room _ 2 hroom)
    have ⟨_, hrun, _⟩ := hdue
    exact ⟨_, completes_of_tickBody hdue hbody hrun, cell_setCell_moved_same r r.sp _ _ _,
      sameCellsBut_setCell_moved r r.sp _ _ _, rfl, rfl, rfl, rfl⟩

end Sys2Proof.Proofs
end

section
/-!
PROOFS. HALT stops the robot (O18): its encoding, and a completed tick of a robot that stops.
-/

namespace Sys2Proof.Proofs

open Sys2Proof.Machine Sys2Proof.Safety Sys2Proof.Laws

/-- The bytes 0x00 to 0x0F are the encodings of HALT, one for each `arg` (30_encoding.md R91). -/
theorem decode_halt {b0 : Byte} (h : b0.toNat ≤ 0x0F) : ∃ arg, decode [b0] = .ok (.halt arg) [] := by
  have hop : b0.toNat / 16 = (0x0#4).toNat := Nat.div_eq_of_lt (Nat.lt_succ_of_le h)
  obtain ⟨arg, rfl, -⟩ := exists_arg_of_op 0x0#4 hop
  exact ⟨arg, decodeOfEncodeGivesTheInstruction (.halt arg) [] rfl⟩

/-- A robot that stops joins the set of halted robots (60_exceptions.md R242): the counterpart of
`completeTick_of_running`. -/
theorem completeTick_of_halted {s : State} {j : Nat} {r : Robot} {heap : Memory}
    (h : r.running = false) :
    s.completeTick j r heap =
      { s with
        robots := s.robots.set j r, heap := heap, ticks := s.ticks + 1, next := j + 1
        haltedInPass := setInsert j s.haltedInPass } := by
  simp [State.completeTick, h]

/-- Settles O18: the body of HALT completes in every state, with the heap as it is and its robot
stopped. -/
theorem haltStopsTheRobot : Obligations.HaltStopsTheRobot := by
  refine ⟨fun _ => decode_halt, fun arg s j r hdue =>
    ⟨setInsert j s.haltedInPass, fun _ => mem_setInsert, ?_⟩⟩
  have hbody : tickBody (.halt arg) s r =
      .completed { r with running := false, pc := r.pc + 1 } s.heap := rfl
  rw [exec_completed hdue hbody, completeTick_of_halted rfl]

end Sys2Proof.Proofs
end

section
/-!
PROOFS. WRITE draws eight bits along the step vector (O19): what its visits store, visit by visit, and
the three ways it ends.
-/

namespace Sys2Proof.Proofs

open Sys2Proof.Machine Sys2Proof.Safety Sys2Proof.Laws

/-! One visit -/

/-- The offset of a visit, computed from the operands of the instruction (20_memory.md R64). -/
theorem plotOffset_plotVector (r : Robot) : plotOffset r.plotVector r.stride = visitOffset r := rfl

theorem drawnByte_eq_zero_or_one (w : Nat) (v : Cell) (i : Nat) :
    drawnByte w v i = 0 ∨ drawnByte w v i = 1 := by
  unfold drawnByte
  split
  · exact .inr rfl
  · exact .inl rfl

/-- In a cell wider than a byte, visit `i` draws bit `7 - i` of the value (43_bit_io.md R152, R155). -/
theorem toNat_drawnByte {w : Nat} (hw : 8 < w) (v : Cell) (i : Nat) :
    ((drawnByte w v i).toNat : Int) = cellBit v (7 - i) := by
  unfold drawnByte
  rw [getLsbD_ofInt_cell v (by omega : 7 - i < w)]
  rcases cellBit_zero_or_one v (7 - i) with hbit | hbit <;> simp [hbit]

/-! The heap that the first visits leave -/

/-- The heap after the first `n` visits of a WRITE by a robot with registers `r`
(43_bit_io.md R152). -/
def writeHeap (s : State) (r : Robot) (n : Nat) : Memory :=
  drawnHeap (visitOffset r) (drawnByte s.params.cellBits (r.cell (r.sp - 5))) (List.range n) s.heap

theorem writeHeap_zero (s : State) (r : Robot) : writeHeap s r 0 = s.heap := rfl

/-- The visits store one after the other. -/
theorem writeHeap_succ (s : State) (r : Robot) (n : Nat) :
    writeHeap s r (n + 1) =
      (writeHeap s r n).write (visitOffset r n).toNat
        (drawnByte s.params.cellBits (r.cell (r.sp - 5)) n) := by
  simp [writeHeap, drawnHeap, List.range_succ]

theorem drawn_zero (r : Robot) (v : Cell) (heap : Memory) : Drawn r v 0 heap heap :=
  ⟨fun _ _ => rfl, fun i hi => absurd hi (Nat.not_lt_zero i)⟩

/-- One more visit draws its bit over what the visits before it drew. -/
theorem drawn_succ {r : Robot} {v : Cell} {n : Nat} {heap heap' : Memory} {b : Byte}
    (hdrawn : Drawn r v n heap heap') (hnonneg : ∀ i, i < n + 1 → 0 ≤ visitOffset r i)
    (hb : (b.toNat : Int) = cellBit v (7 - n)) :
    Drawn r v (n + 1) heap (heap'.write (visitOffset r n).toNat b) := by
  obtain ⟨hframe, hbits⟩ := hdrawn
  have hlast := hnonneg n (Nat.lt_succ_self n)
  refine ⟨fun a hmiss => ?_, fun i hi hlater => ?_⟩
  · have hne := hmiss n (Nat.lt_succ_self n)
    rw [memory_read_write, if_neg (by omega)]
    exact hframe a fun i hi => hmiss i (Nat.lt_succ_of_lt hi)
  · rw [memory_read_write]
    rcases Nat.lt_succ_iff_lt_or_eq.mp hi with hi | rfl
    · have hne := hlater n hi (Nat.lt_succ_self n)
      have hi0 := hnonneg i (Nat.lt_succ_of_lt hi)
      rw [if_neg (by omega)]
      exact hbits i hi fun k hik hkn => hlater k hik (Nat.lt_succ_of_lt hkn)
    · rw [if_pos rfl, hb]

/-- Visits inside the heap draw the bits of the value. -/
theorem drawn_writeHeap {s : State} (hvalid : s.params.valid) {r : Robot} {n : Nat}
    (hin : ∀ i, i < n → VisitInHeap s r i) :
    Drawn r (r.cell (r.sp - 5)) n s.heap (writeHeap s r n) := by
  induction n with
  | zero => exact drawn_zero r _ s.heap
  | succ n ih =>
    rw [writeHeap_succ]
    exact drawn_succ (ih fun i hi => hin i (Nat.lt_succ_of_lt hi)) (fun i hi => (hin i hi).1)
      (toNat_drawnByte hvalid _ n)

/-! The body of WRITE -/

/-- Visits inside the heap are stored, and those after them go on from there. -/
theorem drawVisits_append {s : State} {off : Nat → Int} {bit : Nat → Byte} {before : List Nat}
    (hbefore : VisitsInHeap s off before) (after : List Nat) (heap : Memory) :
    drawVisits s off bit (before ++ after) heap =
      drawVisits s off bit after (drawnHeap off bit before heap) := by
  induction before generalizing heap with
  | nil => rfl
  | cons i rest ih =>
    obtain ⟨hi, hrest⟩ := List.forall_mem_cons.mp hbefore
    rw [List.cons_append, drawVisits, if_pos (inHeap_iff.mpr hi)]
    exact ih hrest _

/-- The eight visits, cut at one of them. -/
theorem visits_eq_append_cons :
    ∀ n, n < 8 → visits = List.range n ++ n :: visits.drop (n + 1) := by decide

/-- Visit `n` is the first of the eight that lies outside the heap. -/
def FirstOutside (s : State) (r : Robot) (n : Nat) : Prop :=
  n < 8 ∧ (∀ i, i < n → VisitInHeap s r i) ∧ ¬VisitInHeap s r n

theorem exists_firstOutside {s : State} {r : Robot} (h : ∃ i, i < 8 ∧ ¬VisitInHeap s r i) :
    ∃ n, FirstOutside s r n := by
  obtain ⟨hn, hout⟩ := Nat.find_spec h
  exact ⟨Nat.find h, hn,
    fun i hi => by_contra fun hnot => Nat.find_min h hi ⟨hi.trans hn, hnot⟩, hout⟩

section WriteBody
variable {s : State} {r : Robot}

theorem tickBody_write_underflow (hsp : r.sp < 5) :
    tickBody .write s r = .raised .runtimeStackUnderflow s.heap := if_pos hsp

/-- A WRITE whose visits are all inside the heap. -/
theorem tickBody_write_drawn (hsp : 5 ≤ r.sp) (hin : ∀ i, i < 8 → VisitInHeap s r i) :
    tickBody .write s r =
      .completed { r with sp := r.sp - 5, pc := r.pc + 1 } (writeHeap s r 8) := by
  have hdraw : drawVisits s (visitOffset r) (drawnByte s.params.cellBits (r.cell (r.sp - 5)))
      visits s.heap = (writeHeap s r 8, true) :=
    drawVisits_append (before := List.range 8) (fun i hi => hin i (List.mem_range.mp hi)) [] s.heap
  refine (if_neg (Nat.not_lt.mpr hsp)).trans ?_
  rw [plotOffset_plotVector, hdraw]
  rfl

/-- A WRITE that leaves the heap at visit `n`. -/
theorem tickBody_write_outside {n : Nat} (hsp : 5 ≤ r.sp) (hfirst : FirstOutside s r n) :
    tickBody .write s r = .raised .outOfBounds (writeHeap s r n) := by
  obtain ⟨hn, hbefore, hout⟩ := hfirst
  have hdraw : drawVisits s (visitOffset r) (drawnByte s.params.cellBits (r.cell (r.sp - 5)))
      visits s.heap = (writeHeap s r n, false) := by
    rw [visits_eq_append_cons n hn,
      drawVisits_append (fun i hi => hbefore i (List.mem_range.mp hi)), drawVisits,
      if_neg (mt inHeap_iff.mp hout)]
    rfl
  refine (if_neg (Nat.not_lt.mpr hsp)).trans ?_
  rw [plotOffset_plotVector, hdraw]

end WriteBody

/-- Settles O19: underflow, all eight visits, or those before the first outside the heap; the visits
made have drawn their bits. -/
theorem writeDrawsEightBits : Obligations.WriteDrawsEightBits := by
  refine ⟨rfl, fun s j r hvalid hdue => ⟨fun hsp => ?underflow, fun hsp hin => ?drawn,
    fun hsp n hn hbefore hout => ?outside⟩⟩
  case underflow => exact raises_of_tickBody hdue (tickBody_write_underflow hsp)
  case drawn =>
    have ⟨_, hrun, _⟩ := hdue
    exact ⟨_, completes_of_tickBody hdue (tickBody_write_drawn hsp hin) hrun,
      drawn_writeHeap hvalid hin⟩
  case outside =>
    have hbody := tickBody_write_outside hsp ⟨hn, hbefore, hout⟩
    exact ⟨_, raises_of_tickBody hdue hbody, drawn_writeHeap hvalid hbefore⟩

end Sys2Proof.Proofs
end

section
/-!
PROOFS. A run leaves initializers or bits in the heap (O48).
-/

namespace Sys2Proof.Proofs

open Sys2Proof.Machine Sys2Proof.Safety Sys2Proof.Laws

/-! Heaps that differ by bits -/

/-- Every byte of `heap'` is what `heap` holds there, or 0, or 1. -/
def BitsOver (heap heap' : Memory) : Prop :=
  ∀ a, heap'.read a = heap.read a ∨ heap'.read a = 0 ∨ heap'.read a = 1

theorem bitsOver_refl (heap : Memory) : BitsOver heap heap := fun _ => .inl rfl

theorem bitsOver_trans {heap₁ heap₂ heap₃ : Memory} (h₁₂ : BitsOver heap₁ heap₂)
    (h₂₃ : BitsOver heap₂ heap₃) : BitsOver heap₁ heap₃ := by
  intro a
  rcases h₂₃ a with hsame | hbit
  · rw [hsame]
    exact h₁₂ a
  · exact .inr hbit

theorem bitsOver_write (heap : Memory) (a : Nat) {b : Byte} (hb : b = 0 ∨ b = 1) :
    BitsOver heap (heap.write a b) := by
  intro a'
  rw [memory_read_write]
  split
  · exact .inr hb
  · exact .inl rfl

/-- The visits of a WRITE store bits (43_bit_io.md R157). -/
theorem bitsOver_writeHeap (s : State) (r : Robot) (n : Nat) :
    BitsOver s.heap (writeHeap s r n) := by
  induction n with
  | zero => exact bitsOver_refl s.heap
  | succ n ih =>
    rw [writeHeap_succ]
    exact bitsOver_trans ih (bitsOver_write _ _ (drawnByte_eq_zero_or_one _ _ n))

/-! One tick, one step, a run -/

/-- However a WRITE ends, the heap it leaves is that of its visits. -/
theorem tickBody_write_bitsOver (s : State) (r : Robot) :
    TickMeets (fun _ heap => BitsOver s.heap heap) (BitsOver s.heap) (tickBody .write s r) := by
  rcases Nat.lt_or_ge r.sp 5 with hfew | hsp
  · rw [tickBody_write_underflow hfew]
    exact bitsOver_refl s.heap
  by_cases hout : ∃ i, i < 8 ∧ ¬VisitInHeap s r i
  · obtain ⟨n, hfirst⟩ := exists_firstOutside hout
    rw [tickBody_write_outside hsp hfirst]
    exact bitsOver_writeHeap s r n
  · rw [tickBody_write_drawn hsp fun i hi => by_contra fun hnot => hout ⟨i, hi, hnot⟩]
    exact bitsOver_writeHeap s r 8

/-- Every instruction, completed or raised, leaves a heap that differs by bits: WRITE by those it
drew, every other not at all. -/
theorem tickBody_bitsOver (i : Instr) (s : State) (r : Robot) :
    TickMeets (fun _ heap => BitsOver s.heap heap) (BitsOver s.heap) (tickBody i s r) := by
  by_cases hi : i = .write
  · subst hi
    exact tickBody_write_bitsOver s r
  · have hkeeps := tickBody_keeps_heap hi s r
    cases hbody : tickBody i s r with
    | completed r' heap =>
      rw [hbody, tickMeets_completed] at hkeeps
      exact hkeeps ▸ bitsOver_refl s.heap
    | raised k heap =>
      rw [hbody, tickMeets_raised] at hkeeps
      exact hkeeps ▸ bitsOver_refl s.heap

theorem endPass_heap (s : State) : s.endPass.heap = s.heap := by
  rcases endPass_cases s with ⟨-, hend⟩ | ⟨-, hend⟩ <;> rw [hend]

theorem step_bitsOver {s t : State} (hstep : step s = .next t) : BitsOver s.heap t.heap := by
  rcases step_cases hstep with ⟨-, rfl⟩ | ⟨-, -, rfl⟩ |
    ⟨-, j, r, -, ⟨-, rfl⟩ | ⟨-, i, -, ⟨r', heap, hbody, rfl⟩ | ⟨k, heap, hbody, rfl⟩⟩⟩
  · exact bitsOver_refl t.heap
  · rw [endPass_heap]
    exact bitsOver_refl s.heap
  · exact bitsOver_refl s.heap
  all_goals
    have hbits := tickBody_bitsOver i s r
    rw [hbody] at hbits
    exact hbits

/-- What holds before a bounded run and is kept by every step holds after it
(60_exceptions.md R260). -/
theorem hostRun_induction {P : State → Prop} (hkeeps : ∀ s t, P s → step s = .next t → P t)
    {n : Nat} {s t : State} (hs : P s) (hrun : hostRun n s = .next t) : P t := by
  induction n generalizing s with
  | zero =>
    obtain rfl := Host.Outcome.next.inj hrun
    exact hs
  | succ n ih =>
    obtain ⟨u, hstep⟩ := everyStepAnswersANextState s
    simp only [hostRun, hstep] at hrun
    split at hrun
    · exact ih (hkeeps s u hs hstep) hrun
    · obtain rfl := Host.Outcome.next.inj hrun
      exact hs

/-- Settles O48, by induction on the run: each step adds bits at most. -/
theorem runsLeaveInitializersOrBits : Obligations.RunsLeaveInitializersOrBits := by
  intro s t image n a _ hrun
  have hbits : BitsOver (s.load image).heap t.heap :=
    hostRun_induction (P := fun u => BitsOver (s.load image).heap u.heap)
      (fun _ _ hu hstep => bitsOver_trans hu (step_bitsOver hstep)) (bitsOver_refl _) hrun
  exact hbits a

end Sys2Proof.Proofs
end

section
/-!
PROOFS. READ gathers eight bits along the step vector (O20): the number that a list of bytes gathers
to, its encodings, and the three ways it ends.
-/

namespace Sys2Proof.Proofs

open Sys2Proof.Machine Sys2Proof.Safety Sys2Proof.Laws

/-! The number gathered, the first byte the most significant -/

/-- Doubling and adding, byte after byte, weighs each by a power of two, the last by one. -/
theorem foldl_double_add_map_range (weight : Byte → Nat) (byte : Nat → Byte) (n : Nat) :
    ((List.range n).map byte).foldl (fun acc c => 2 * acc + weight c) 0 =
      ∑ i ∈ Finset.range n, weight (byte i) * 2 ^ (n - 1 - i) := by
  induction n with
  | zero => rfl
  | succ n ih =>
    have hdouble : ∀ i ∈ Finset.range n,
        2 * (weight (byte i) * 2 ^ (n - 1 - i)) = weight (byte i) * 2 ^ (n - i) := by
      intro i hi
      have hi : i < n := Finset.mem_range.mp hi
      rw [show n - i = n - 1 - i + 1 by omega, pow_succ]
      ring
    rw [List.range_succ, List.map_append, List.foldl_append, ih, Finset.sum_range_succ,
      Nat.add_sub_cancel, ← Finset.sum_congr rfl hdouble, ← Finset.mul_sum]
    simp

/-- Shifting in one bit doubles the number and adds the bit (43_bit_io.md R153). -/
theorem gatherBits_eq_foldl {mode : Config.BitReadMode} (hbit : ∀ c, bitOfByte mode c < 2)
    (bytes : List Byte) :
    gatherBits mode bytes = bytes.foldl (fun acc c => 2 * acc + bitOfByte mode c) 0 := by
  have hstep : (fun acc c => acc <<< 1 ||| bitOfByte mode c) =
      fun acc c => 2 * acc + bitOfByte mode c := by
    funext acc c
    rw [← Nat.shiftLeft_add_eq_or_of_lt (i := 1) (hbit c), Nat.shiftLeft_eq, pow_one, Nat.mul_comm]
  rw [gatherBits, hstep]

theorem bitOfByte_lsb (c : Byte) : bitOfByte .lsb c = c.toNat % 2 := by
  simp [bitOfByte, Nat.and_one_is_mod]

/-- The bytes READ visits, in the order visited (20_memory.md R64). -/
def visitedBytes (heap : Memory) (r : Robot) : List Byte :=
  (List.range 8).map fun i => heap.read (visitOffset r i).toNat

/-- The visited bytes at their bit weights, each counted as the mode says (43_bit_io.md R154). -/
def visitSum (mode : Config.BitReadMode) (heap : Memory) (r : Robot) : Nat :=
  ∑ i ∈ Finset.range 8, bitOfByte mode (heap.read (visitOffset r i).toNat) * 2 ^ (7 - i)

theorem gatherBits_visitedBytes {mode : Config.BitReadMode} (hbit : ∀ c, bitOfByte mode c < 2)
    (heap : Memory) (r : Robot) :
    gatherBits mode (visitedBytes heap r) = visitSum mode heap r :=
  (gatherBits_eq_foldl hbit _).trans (foldl_double_add_map_range _ _ 8)

theorem gatherRaw_visitedBytes (heap : Memory) (r : Robot) :
    gatherRaw (visitedBytes heap r) = visitSum .raw heap r :=
  foldl_double_add_map_range (bitOfByte .raw) _ 8

section Gathered
variable {p : Config.Params} (heap : Memory) (r : Robot)

theorem gathered_lsb (hmode : p.bitReadMode = .lsb) :
    gathered p (visitedBytes heap r) = visitSum .lsb heap r := by
  simp only [gathered, hmode, zext, gatherBits_visitedBytes bitOfByte_lsb_lt]

theorem gathered_nonzero (hmode : p.bitReadMode = .nonzero) :
    gathered p (visitedBytes heap r) = visitSum .nonzero heap r := by
  simp only [gathered, hmode, zext, gatherBits_visitedBytes bitOfByte_nonzero_lt]

theorem gathered_raw (hmode : p.bitReadMode = .raw) :
    gathered p (visitedBytes heap r) = wrap p.cellBits (visitSum .raw heap r) := by
  simp only [gathered, hmode, gatherRaw_visitedBytes]

end Gathered

/-! The encoding -/

/-- The bytes 0x10 and 0x12 to 0x1F are the encodings of READ, one for each `arg` but 1
(30_encoding.md R91). -/
theorem decode_read {b0 : Byte} (h : b0.toNat = 0x10 ∨ (0x12 ≤ b0.toNat ∧ b0.toNat ≤ 0x1F)) :
    ∃ arg, decode [b0] = .ok (.read arg) [] := by
  obtain ⟨arg, rfl, harg⟩ := exists_arg_of_op (b0 := b0) 0x1#4 (by bv_omega)
  have hwf : (Instr.read arg).wellFormed = true := bne_iff_ne.mpr (by bv_omega)
  exact ⟨arg, decodeOfEncodeGivesTheInstruction (.read arg) [] hwf⟩

/-! The body of READ -/

/-- The registers that a READ of the given heap leaves. -/
def readRobot (p : Config.Params) (heap : Memory) (r : Robot) : Robot :=
  (r.setCell (r.sp - 4) (gathered p (visitedBytes heap r))).moved (r.sp - 3) (r.pc + 1)

theorem readRobot_cell (p : Config.Params) (heap : Memory) (r : Robot) :
    (readRobot p heap r).cell (r.sp - 4) = gathered p (visitedBytes heap r) :=
  cell_setCell_moved_same r (r.sp - 4) _ _ _

section ReadBody
variable {s : State} {r : Robot} {arg : BitVec 4}

theorem tickBody_read_underflow (hsp : r.sp < 4) :
    tickBody (.read arg) s r = .raised .runtimeStackUnderflow s.heap := if_pos hsp

/-- A READ with a visit outside the heap. -/
theorem tickBody_read_outside (hsp : 4 ≤ r.sp) (hout : ∃ i, i < 8 ∧ ¬VisitInHeap s r i) :
    tickBody (.read arg) s r = .raised .outOfBounds s.heap := by
  obtain ⟨i, hi, hiout⟩ := hout
  have hgather : gatherVisits s (visitOffset r) visits = none :=
    gatherVisits_eq_none.mpr ⟨i, List.mem_range.mpr hi, hiout⟩
  refine (if_neg (Nat.not_lt.mpr hsp)).trans ?_
  rw [plotOffset_plotVector, hgather]

/-- A READ whose visits are all inside the heap. -/
theorem tickBody_read_gathered (hsp : 4 ≤ r.sp) (hin : ∀ i, i < 8 → VisitInHeap s r i) :
    tickBody (.read arg) s r = .completed (readRobot s.params s.heap r) s.heap := by
  have hgather : gatherVisits s (visitOffset r) visits = some (visitedBytes s.heap r) :=
    gatherVisits_eq_some.mpr ⟨fun i hi => hin i (List.mem_range.mp hi), rfl⟩
  refine (if_neg (Nat.not_lt.mpr hsp)).trans ?_
  rw [plotOffset_plotVector, hgather]
  rfl

theorem read_completes {j : Nat} (hdue : Due s j r) (hsp : 4 ≤ r.sp)
    (hin : ∀ i, i < 8 → VisitInHeap s r i) :
    Completes (.read arg) s j (readRobot s.params s.heap r) s.heap := by
  have ⟨_, hrun, _⟩ := hdue
  exact completes_of_tickBody hdue (tickBody_read_gathered hsp hin) hrun

end ReadBody

/-- Settles O20: underflow, a visit outside the heap, or the eight bytes gathered in the build's
mode. -/
theorem readGathersEightBits : Obligations.ReadGathersEightBits := by
  refine ⟨fun _ => decode_read, fun arg s j r hvalid hdue => ⟨fun hsp => ?underflow,
    fun hsp hout => ?outside, fun hsp hin => ⟨_, read_completes hdue hsp hin,
      sameCellsBut_setCell_moved r (r.sp - 4) _ _ _, rfl, rfl, rfl, rfl,
      fun hmode => ?lsb, fun hmode => ?nonzero, fun hmode => ?raw⟩⟩⟩
  case underflow => exact raises_of_tickBody hdue (tickBody_read_underflow hsp)
  case outside => exact raises_of_tickBody hdue (tickBody_read_outside hsp hout)
  case lsb =>
    rw [readRobot_cell, gathered_lsb _ _ hmode, visitSum, Nat.cast_sum]
    simp only [bitOfByte_lsb]
  case nonzero =>
    rw [readRobot_cell, gathered_nonzero _ _ hmode, visitSum, Nat.cast_sum]
    rfl
  case raw =>
    have hw : 0 < s.params.cellBits := Nat.zero_lt_of_lt hvalid
    have hwrap := wrap_isWrap hw (visitSum .raw s.heap r)
    rw [← gathered_raw _ _ hmode, ← readRobot_cell, visitSum, Nat.cast_sum] at hwrap
    exact hwrap

end Sys2Proof.Proofs
end

section
/-!
PROOFS. READ returns what WRITE drew (O21): bytes that hold bits gather to the same number in every
mode, and the bits of a value, each at its weight, are its low byte.
-/

namespace Sys2Proof.Proofs

open Sys2Proof.Machine Sys2Proof.Safety Sys2Proof.Laws

/-! Gathering bits -/

/-- A byte that holds a bit counts as that bit in every mode (43_bit_io.md R154, R156). -/
theorem bitOfByte_of_le_one {c : Byte} (hc : c.toNat ≤ 1) (mode : Config.BitReadMode) :
    bitOfByte mode c = c.toNat := by
  have hbit : c = 0 ∨ c = 1 := by bv_omega
  rcases hbit with rfl | rfl <;> cases mode <;> rfl

/-- Every visited byte holds a bit. -/
def VisitsHoldBits (heap : Memory) (r : Robot) : Prop :=
  ∀ i, i < 8 → (heap.read (visitOffset r i).toNat).toNat ≤ 1

theorem visitSum_of_holdBits {heap : Memory} {r : Robot} (hbits : VisitsHoldBits heap r)
    (mode mode' : Config.BitReadMode) : visitSum mode heap r = visitSum mode' heap r :=
  Finset.sum_congr rfl fun i hi => by
    have hbyte := hbits i (Finset.mem_range.mp hi)
    rw [bitOfByte_of_le_one hbyte mode, bitOfByte_of_le_one hbyte mode']

/-- Eight bits gather to a byte, which no mode wraps. -/
theorem gathered_of_holdBits {p : Config.Params} (hvalid : p.valid) {heap : Memory} {r : Robot}
    (hbits : VisitsHoldBits heap r) :
    gathered p (visitedBytes heap r) = visitSum .raw heap r := by
  have hsame := visitSum_of_holdBits hbits
  cases hmode : p.bitReadMode with
  | lsb => rw [gathered_lsb _ _ hmode, hsame .lsb .raw]
  | nonzero => rw [gathered_nonzero _ _ hmode, hsame .nonzero .raw]
  | raw =>
    have hlt : visitSum .lsb heap r < 2 ^ 8 :=
      gatherBits_visitedBytes bitOfByte_lsb_lt heap r ▸ gatherBits_lt bitOfByte_lsb_lt _
    rw [gathered_raw _ _ hmode, hsame .raw .lsb]
    exact wrap_of_inRange (Nat.zero_lt_of_lt hvalid) (zext_inRange hvalid hlt)

/-! The bits of a value -/

/-- The low bits of a value at their weights are its remainder modulo the next power of two
(00_scope.md R12). -/
theorem sum_cellBit_mul_two_pow (v : Int) (n : Nat) :
    ∑ i ∈ Finset.range n, cellBit v i * 2 ^ i = v % 2 ^ n := by
  induction n with
  | zero => simp
  | succ n ih =>
    have hquot : v / 2 ^ (n + 1) = v / 2 ^ n / 2 := by
      rw [pow_succ, Int.ediv_ediv_of_nonneg (by positivity)]
    rw [Finset.sum_range_succ, ih, cellBit, Int.emod_def v, Int.emod_def v, hquot,
      Int.emod_def (v / 2 ^ n)]
    ring

/-- A value is its low byte exactly when it is one (43_bit_io.md R156). -/
theorem lowByte_eq_self_iff (v : Int) : v % 256 = v ↔ 0 ≤ v ∧ v ≤ 255 := by omega

/-- Bytes that hold the low eight bits of `v`, as WRITE leaves them, weigh its low byte. -/
theorem visitSum_of_drawn {heap : Memory} {r : Robot} {v : Cell}
    (hdrawn : ∀ i, i < 8 →
      ((heap.read (visitOffset r i).toNat).toNat : Int) = cellBit v (7 - i)) :
    (visitSum .raw heap r : Int) = v % 256 := by
  calc (visitSum .raw heap r : Int)
      = ∑ i ∈ Finset.range 8, cellBit v (7 - i) * 2 ^ (7 - i) := by
        rw [visitSum, Nat.cast_sum]
        refine Finset.sum_congr rfl fun i hi => ?_
        rw [← hdrawn i (Finset.mem_range.mp hi)]
        push_cast
        rfl
    _ = ∑ i ∈ Finset.range 8, cellBit v i * 2 ^ i :=
        Finset.sum_range_reflect (fun i => cellBit v i * 2 ^ i) 8
    _ = v % 256 := sum_cellBit_mul_two_pow v 8

/-- Two robots with the same top four cells and stride visit the same bytes (43_bit_io.md R156). -/
theorem visitOffset_congr {r q : Robot} (hstride : q.stride = r.stride)
    (hcells : ∀ n, 1 ≤ n → n ≤ 4 → q.cell (q.sp - n) = r.cell (r.sp - n)) (i : Nat) :
    visitOffset q i = visitOffset r i := by
  simp only [visitOffset, hstride, hcells 4 (by decide) (by decide),
    hcells 3 (by decide) (by decide), hcells 2 (by decide) (by decide),
    hcells 1 (by decide) (by decide)]

/-- A WRITE of eight distinct offsets leaves at each the bit that its visit drew. -/
theorem read_of_drawn_distinct {r : Robot} {v : Cell} {heap heap' : Memory}
    (hdrawn : Drawn r v 8 heap heap')
    (hdistinct : ∀ i m, i < m → m < 8 → visitOffset r i ≠ visitOffset r m) {i : Nat} (hi : i < 8) :
    ((heap'.read (visitOffset r i).toNat).toNat : Int) = cellBit v (7 - i) := by
  obtain ⟨-, hbits⟩ := hdrawn
  exact hbits i hi fun k hik hk => (hdistinct i k hik hk).symm

/-- Settles O21: WRITE leaves a bit of the value at each of the distinct offsets (O19), and READ, which
visits the same, gathers them. -/
theorem readReturnsWhatWriteDrew : Obligations.ReadReturnsWhatWriteDrew := by
  intro arg s t u j k r q hvalid hvalid' hdue hsp hin hdistinct hwrite hdue' hsp' hsize hstride
    hcells hkept
  obtain ⟨-, hwrites⟩ := writeDrawsEightBits
  obtain ⟨-, hall, -⟩ := hwrites s j r hvalid hdue
  obtain ⟨heap', hcompletes, hdrawn⟩ := hall hsp hin
  have ht := Host.Outcome.next.inj (hwrite.symm.trans hcompletes)
  have hoffset := visitOffset_congr hstride hcells
  have hheld : ∀ i, i < 8 →
      ((u.heap.read (visitOffset q i).toNat).toNat : Int) = cellBit (r.cell (r.sp - 5)) (7 - i) := by
    intro i hi
    rw [hoffset, hkept i hi, ht]
    exact read_of_drawn_distinct hdrawn hdistinct hi
  have hbits : VisitsHoldBits u.heap q := by
    intro i hi
    have hbyte := hheld i hi
    rcases cellBit_zero_or_one (r.cell (r.sp - 5)) (7 - i) with hbit | hbit <;> omega
  have hin' : ∀ i, i < 8 → VisitInHeap u q i := by
    intro i hi
    rw [VisitInHeap, hoffset, hsize]
    exact hin i hi
  have hcell : (readRobot u.params u.heap q).cell (q.sp - 4) = r.cell (r.sp - 5) % 256 := by
    rw [readRobot_cell, gathered_of_holdBits hvalid' hbits, visitSum_of_drawn hheld]
  refine ⟨_, read_completes hdue' hsp' hin', rfl, hcell, ?_⟩
  rw [hcell]
  exact lowByte_eq_self_iff _

end Sys2Proof.Proofs
end

section
/-!
PROOFS. The binary STACK operations: SUB, ADD, MUL, AND and OR (O22, O23, O24, O27, O28), as one law
of the shared operation and one fact about each result.
-/

namespace Sys2Proof.Proofs

open Sys2Proof.Machine Sys2Proof.Safety Sys2Proof.Laws

/-- An instruction whose body completes and keeps the running flag of its robot, which is due and so
running. -/
theorem completes_of_keeps_running {i : Instr} {s : State} {j : Nat} {r r' : Robot} {heap : Memory}
    (hdue : Due s j r) (hbody : tickBody i s r = .completed r' heap)
    (hkeeps : r'.running = r.running) : Completes i s j r' heap := by
  have ⟨_, hrun, _⟩ := hdue
  exact completes_of_tickBody hdue hbody (hkeeps.trans hrun)

theorem cellBits_pos {p : Config.Params} (h : p.valid) : 0 < p.cellBits := Nat.zero_lt_of_lt h

/-! The shared operation, on either side of its operand check -/

/-- The registers that a binary operation with result `v` leaves (44_stack_alu.md R170). -/
def binaryRobot (r : Robot) (v : Cell) : Robot :=
  (r.setCell (r.sp - 2) v).moved (r.sp - 1) (r.pc + 1)

theorem binaryResult_binaryRobot (r : Robot) (v : Cell) : BinaryResult r (binaryRobot r v) v :=
  ⟨cell_setCell_moved_same r (r.sp - 2) _ _ v, sameCellsBut_setCell_moved r (r.sp - 2) _ _ v,
    rfl, rfl, rfl, rfl⟩

section Binary
variable {i : Instr} {s : State} {j : Nat} {r : Robot} (f : Cell → Cell → Cell)

/-- The result of a binary operation: `b` is the lower cell, `a` the top one. -/
def binaryValue (r : Robot) : Cell := f (r.cell (r.sp - 2)) (r.cell (r.sp - 1))

theorem binaryTick_underflow (hsp : r.sp < 2) :
    binaryTick f s r = .raised .runtimeStackUnderflow s.heap := if_pos hsp

theorem binaryTick_completed (hsp : 2 ≤ r.sp) :
    binaryTick f s r = .completed (binaryRobot r (binaryValue f r)) s.heap :=
  if_neg (Nat.not_lt.mpr hsp)

/-- Both outcomes of an instruction that is a binary operation, with what is known of its result
(44_stack_alu.md R170). -/
theorem binary_outcomes {P : Cell → Prop} (hdue : Due s j r)
    (hbody : tickBody i s r = binaryTick f s r) (hvalue : P (binaryValue f r)) :
    (r.sp < 2 → Raises i s j r .runtimeStackUnderflow s.heap) ∧
      (2 ≤ r.sp → ∃ r' v, Completes i s j r' s.heap ∧ BinaryResult r r' v ∧ P v) := by
  refine ⟨fun hsp => ?underflow, fun hsp =>
    ⟨binaryRobot r _, _, ?completes, binaryResult_binaryRobot r _, hvalue⟩⟩
  case underflow => exact raises_of_tickBody hdue (hbody.trans (binaryTick_underflow f hsp))
  case completes =>
    exact completes_of_keeps_running hdue (hbody.trans (binaryTick_completed f hsp)) rfl

end Binary

/-! The bits of a bitwise result -/

theorem cellBit_andCells {w : Nat} (b a : Cell) {n : Nat} (hn : n < w) :
    cellBit (andCells w b a) n = 1 ↔ cellBit b n = 1 ∧ cellBit a n = 1 := by
  rw [andCells, cellBit_toInt _ hn, BitVec.getLsbD_and, getLsbD_ofInt_cell b hn,
    getLsbD_ofInt_cell a hn, Bool.and_eq_true, decide_eq_true_iff, decide_eq_true_iff]

theorem cellBit_orCells {w : Nat} (b a : Cell) {n : Nat} (hn : n < w) :
    cellBit (orCells w b a) n = 1 ↔ cellBit b n = 1 ∨ cellBit a n = 1 := by
  rw [orCells, cellBit_toInt _ hn, BitVec.getLsbD_or, getLsbD_ofInt_cell b hn,
    getLsbD_ofInt_cell a hn, Bool.or_eq_true, decide_eq_true_iff, decide_eq_true_iff]

/-! The obligations -/

/-- Settles O22: SUB is the binary operation that wraps the difference. -/
theorem subPushesTheWrappedDifference : Obligations.SubPushesTheWrappedDifference :=
  ⟨decodeOfEncodeGivesTheInstruction .sub [] rfl, fun s _ _ hvalid hdue =>
    binary_outcomes (subCells s.params.cellBits) hdue rfl (wrap_isWrap (cellBits_pos hvalid) _)⟩

/-- Settles O23: ADD is the binary operation that wraps the sum. -/
theorem addPushesTheWrappedSum : Obligations.AddPushesTheWrappedSum :=
  ⟨decodeOfEncodeGivesTheInstruction .add [] rfl, fun s _ _ hvalid hdue =>
    binary_outcomes (addCells s.params.cellBits) hdue rfl (wrap_isWrap (cellBits_pos hvalid) _)⟩

/-- Settles O24: MUL is the binary operation that wraps the product. -/
theorem mulPushesTheWrappedProduct : Obligations.MulPushesTheWrappedProduct :=
  ⟨decodeOfEncodeGivesTheInstruction .mul [] rfl, fun s _ _ hvalid hdue =>
    binary_outcomes (mulCells s.params.cellBits) hdue rfl (wrap_isWrap (cellBits_pos hvalid) _)⟩

/-- Settles O27: AND is the binary operation whose result has the bits that both cells have. -/
theorem andPushesTheBitwiseAnd : Obligations.AndPushesTheBitwiseAnd :=
  ⟨decodeOfEncodeGivesTheInstruction .and [] rfl, fun s _ _ hvalid hdue =>
    binary_outcomes (andCells s.params.cellBits) hdue rfl
      ⟨andCells_inRange (cellBits_pos hvalid) _ _, fun _ => cellBit_andCells _ _⟩⟩

/-- Settles O28: OR is the binary operation whose result has the bits that either cell has. -/
theorem orPushesTheBitwiseOr : Obligations.OrPushesTheBitwiseOr :=
  ⟨decodeOfEncodeGivesTheInstruction .or [] rfl, fun s _ _ hvalid hdue =>
    binary_outcomes (orCells s.params.cellBits) hdue rfl
      ⟨orCells_inRange (cellBits_pos hvalid) _ _, fun _ => cellBit_orCells _ _⟩⟩

end Sys2Proof.Proofs
end

section
/-!
PROOFS. DIV and MOD (O25, O26): the faults they share, in order, and the quotient rounded toward zero
with the remainder it leaves.
-/

namespace Sys2Proof.Proofs

open Sys2Proof.Machine Sys2Proof.Safety Sys2Proof.Laws

section Divide
variable {s : State} {r : Robot} (f : Cell → Cell → Cell)

theorem divideTick_empty (hsp : r.sp = 0) :
    divideTick f s r = .raised .runtimeStackUnderflow s.heap := if_pos hsp

theorem divideTick_zero (hsp : 0 < r.sp) (hzero : r.cell (r.sp - 1) = 0) :
    divideTick f s r = .raised .runtimeDivisionByZero s.heap := by
  rw [divideTick, if_neg hsp.ne', if_pos hzero]

/-- Past the check for zero, DIV and MOD are binary operations. -/
theorem divideTick_eq_binaryTick (hsp : 0 < r.sp) (hne : r.cell (r.sp - 1) ≠ 0) :
    divideTick f s r = binaryTick f s r := by
  rw [divideTick, if_neg hsp.ne', if_neg hne]

/-- Every outcome of an instruction that is DIV or MOD, with what is known of its result `v` and of
the quotient `q` (44_stack_alu.md R174, R175). -/
theorem divide_outcomes {i : Instr} {j : Nat} {P : Cell → Int → Prop} (q : Int) (hdue : Due s j r)
    (hbody : tickBody i s r = divideTick f s r)
    (hvalue : r.cell (r.sp - 1) ≠ 0 → P (binaryValue f r) q) :
    (r.sp = 0 → Raises i s j r .runtimeStackUnderflow s.heap) ∧
      (0 < r.sp → r.cell (r.sp - 1) = 0 → Raises i s j r .runtimeDivisionByZero s.heap) ∧
      (r.sp = 1 → r.cell (r.sp - 1) ≠ 0 → Raises i s j r .runtimeStackUnderflow s.heap) ∧
      (2 ≤ r.sp → r.cell (r.sp - 1) ≠ 0 →
        ∃ r' v q, Completes i s j r' s.heap ∧ BinaryResult r r' v ∧ P v q) := by
  refine ⟨fun hsp => ?empty, fun hsp hzero => ?zero, fun hsp hne => ?single, fun hsp hne => ?pair⟩
  case empty => exact raises_of_tickBody hdue (hbody.trans (divideTick_empty f hsp))
  case zero => exact raises_of_tickBody hdue (hbody.trans (divideTick_zero f hsp hzero))
  case single =>
    have hbinary := hbody.trans (divideTick_eq_binaryTick f (by omega) hne)
    exact raises_of_tickBody hdue (hbinary.trans (binaryTick_underflow f (by omega)))
  case pair =>
    have hbinary := hbody.trans (divideTick_eq_binaryTick f (by omega) hne)
    obtain ⟨-, hcompletes⟩ := binary_outcomes f (P := fun v => P v q) hdue hbinary (hvalue hne)
    obtain ⟨r', v, hdone, hresult, hP⟩ := hcompletes hsp
    exact ⟨r', v, q, hdone, hresult, hP⟩

end Divide

/-- Settles O25: the value is the wrapped quotient rounded toward zero, which leaves a remainder
smaller than the divisor and of the dividend's sign. -/
theorem divPushesTheTruncatedQuotient : Obligations.DivPushesTheTruncatedQuotient := by
  refine ⟨decodeOfEncodeGivesTheInstruction .div [] rfl, fun s j r hvalid hdue =>
    divide_outcomes (divCells s.params.cellBits)
      (tdiv (r.cell (r.sp - 2)) (r.cell (r.sp - 1))) hdue rfl fun hne => ?_⟩
  obtain ⟨hsmall, -, hnonneg, hnonpos⟩ := trem_facts (r.cell (r.sp - 2)) hne
  exact ⟨wrap_isWrap (cellBits_pos hvalid) _, hsmall, hnonneg, hnonpos⟩

/-- Settles O26: the value is the remainder of that quotient, which needs no wrap. -/
theorem modPushesTheRemainder : Obligations.ModPushesTheRemainder := by
  refine ⟨decodeOfEncodeGivesTheInstruction .mod [] rfl, fun s j r hdue =>
    divide_outcomes modCells (tdiv (r.cell (r.sp - 2)) (r.cell (r.sp - 1))) hdue rfl
      fun hne => ?_⟩
  obtain ⟨hsmall, -, hnonneg, hnonpos⟩ := trem_facts (r.cell (r.sp - 2)) hne
  exact ⟨(add_sub_cancel _ _).symm, hsmall, hnonneg, hnonpos, modCells_inRange hne⟩

end Sys2Proof.Proofs
end

section
/-!
PROOFS. The other STACK operations: NOT, POP, SWAP, DUP and the reserved bytes (O29 to O33).
-/

namespace Sys2Proof.Proofs

open Sys2Proof.Machine Sys2Proof.Safety Sys2Proof.Laws

/-! NOT -/

/-- Every bit of the complement is the other one. -/
theorem cellBit_notCell {w : Nat} (a : Cell) {n : Nat} (hn : n < w) :
    cellBit (notCell w a) n = 1 - cellBit a n := by
  have hflip : cellBit (notCell w a) n = 1 ↔ ¬cellBit a n = 1 := by
    rw [notCell, cellBit_toInt _ hn, BitVec.getLsbD_not, getLsbD_ofInt_cell a hn, decide_eq_true hn,
      Bool.true_and, Bool.not_eq_true', decide_eq_false_iff_not]
  have ha := cellBit_zero_or_one a n
  have hnot := cellBit_zero_or_one (notCell w a) n
  omega

/-- The registers that NOT leaves (44_stack_alu.md R178). -/
def notRobot (w : Nat) (r : Robot) : Robot :=
  (r.setCell (r.sp - 1) (notCell w (r.cell (r.sp - 1)))).moved r.sp (r.pc + 1)

theorem notRobot_cell (w : Nat) (r : Robot) :
    (notRobot w r).cell (r.sp - 1) = notCell w (r.cell (r.sp - 1)) :=
  cell_setCell_moved_same r (r.sp - 1) _ _ _

/-! SWAP -/

/-- The registers that SWAP leaves (44_stack_alu.md R180). -/
def swapRobot (r : Robot) : Robot :=
  ((r.setCell (r.sp - 1) (r.cell (r.sp - 2))).setCell (r.sp - 2) (r.cell (r.sp - 1))).moved
    r.sp (r.pc + 1)

theorem swapRobot_cell_lower (r : Robot) : (swapRobot r).cell (r.sp - 2) = r.cell (r.sp - 1) :=
  cell_setCell_moved_same _ (r.sp - 2) _ _ _

theorem swapRobot_cell_of_ne {r : Robot} {k : Nat} (hk : k ≠ r.sp - 2) :
    (swapRobot r).cell k = if r.sp - 1 = k then r.cell (r.sp - 2) else r.cell k := by
  rw [swapRobot, cell_moved, cell_setCell, if_neg hk.symm, cell_setCell]

/-! The bodies, on either side of their operand checks -/

section Bodies
variable {s : State} {r : Robot}

theorem tickBody_not_empty (hsp : r.sp = 0) :
    tickBody .not s r = .raised .runtimeStackUnderflow s.heap := if_pos (by omega)

theorem tickBody_not_completed (hsp : 0 < r.sp) :
    tickBody .not s r = .completed (notRobot s.params.cellBits r) s.heap := if_neg (by omega)

theorem tickBody_pop_empty (hsp : r.sp = 0) :
    tickBody .pop s r = .raised .runtimeStackUnderflow s.heap := if_pos (by omega)

theorem tickBody_pop_completed (hsp : 0 < r.sp) :
    tickBody .pop s r = .completed { r with sp := r.sp - 1, pc := r.pc + 1 } s.heap :=
  if_neg (by omega)

theorem tickBody_swap_underflow (hsp : r.sp < 2) :
    tickBody .swap s r = .raised .runtimeStackUnderflow s.heap := if_pos hsp

theorem tickBody_swap_completed (hsp : 2 ≤ r.sp) :
    tickBody .swap s r = .completed (swapRobot r) s.heap := if_neg (by omega)

theorem tickBody_dup_empty (hsp : r.sp = 0) :
    tickBody .dup s r = .raised .runtimeStackUnderflow s.heap := if_pos (by omega)

/-- Past its operand check DUP is the shared push of the top cell. -/
theorem tickBody_dup_eq_pushTick (hsp : 0 < r.sp) :
    tickBody .dup s r = pushTick (r.cell (r.sp - 1)) 1 s r := if_neg (by omega)

end Bodies

/-! The obligations -/

/-- Settles O29: the top cell is written with its complement, in range or not. -/
theorem notComplementsTheTop : Obligations.NotComplementsTheTop := by
  refine ⟨decodeOfEncodeGivesTheInstruction .not [] rfl, fun s j r hvalid hdue =>
    ⟨fun hsp => raises_of_tickBody hdue (tickBody_not_empty hsp), fun hsp =>
      ⟨_, completes_of_keeps_running hdue (tickBody_not_completed hsp) rfl,
        sameCellsBut_setCell_moved r (r.sp - 1) _ _ _, rfl, rfl, rfl, rfl,
        fun n hn => ?bits, fun hrange => ?value⟩⟩⟩
  case bits => rw [notRobot_cell, cellBit_notCell _ hn]
  case value => rw [notRobot_cell, notCell_of_inRange (cellBits_pos hvalid) hrange]

/-- Settles O30: POP moves `sp` and `pc` and writes no cell. -/
theorem popDiscardsTheTop : Obligations.PopDiscardsTheTop :=
  ⟨decodeOfEncodeGivesTheInstruction .pop [] rfl, fun _ _ _ hdue =>
    ⟨fun hsp => raises_of_tickBody hdue (tickBody_pop_empty hsp), fun hsp =>
      completes_of_keeps_running hdue (tickBody_pop_completed hsp) rfl⟩⟩

/-- Settles O31: with two cells on the stack the top two are different ones, so that neither write
undoes the other. -/
theorem swapExchangesTheTopTwo : Obligations.SwapExchangesTheTopTwo := by
  refine ⟨decodeOfEncodeGivesTheInstruction .swap [] rfl, fun s j r hdue =>
    ⟨fun hsp => raises_of_tickBody hdue (tickBody_swap_underflow hsp), fun hsp =>
      ⟨_, completes_of_keeps_running hdue (tickBody_swap_completed hsp) rfl, ?top,
        swapRobot_cell_lower r, fun k htop hlower => ?others, rfl, rfl, rfl, rfl⟩⟩⟩
  case top => rw [swapRobot_cell_of_ne (by omega), if_pos rfl]
  case others => rw [swapRobot_cell_of_ne hlower, if_neg htop.symm]

/-- Settles O32: the operand check comes before the push, which asks for room. -/
theorem dupPushesTheTopAgain : Obligations.DupPushesTheTopAgain := by
  refine ⟨decodeOfEncodeGivesTheInstruction .dup [] rfl, fun s j r hdue =>
    ⟨fun hsp => ?empty, fun hsp hfull => ?full, fun hsp hroom => ?pushed⟩⟩
  case empty => exact raises_of_tickBody hdue (tickBody_dup_empty hsp)
  case full =>
    exact raises_of_tickBody hdue ((tickBody_dup_eq_pushTick hsp).trans (pushTick_full _ 1 hfull))
  case pushed =>
    have hbody := (tickBody_dup_eq_pushTick hsp).trans (pushTick_room _ 1 hroom)
    exact ⟨_, completes_of_keeps_running hdue hbody rfl, cell_setCell_moved_same r r.sp _ _ _,
      sameCellsBut_setCell_moved r r.sp _ _ _, rfl, rfl, rfl, rfl⟩

/-- The bytes 0x2B to 0x2F are the encodings of the reserved STACK operation, one for each `arg` above
DUP's (30_encoding.md R93). -/
theorem decode_reservedStack {b0 : Byte} (hlow : 0x2B ≤ b0.toNat) (hhigh : b0.toNat ≤ 0x2F) :
    ∃ arg, decode [b0] = .ok (.reservedStack arg) [] := by
  obtain ⟨arg, rfl, harg⟩ := exists_arg_of_op (b0 := b0) 0x2#4 (by bv_omega)
  have hwf : (Instr.reservedStack arg).wellFormed = true := decide_eq_true (by omega)
  exact ⟨arg, decodeOfEncodeGivesTheInstruction (.reservedStack arg) [] hwf⟩

/-- Settles O33: the body raises in every state. -/
theorem reservedStackBytesRaiseBadInput : Obligations.ReservedStackBytesRaiseBadInput :=
  ⟨fun _ => decode_reservedStack, fun _ _ _ _ hdue => raises_of_tickBody hdue rfl⟩

end Sys2Proof.Proofs
end

section
/-!
PROOFS. JMP goes to its target (O35): both encodings, and the escape byte of the long form.
-/

namespace Sys2Proof.Proofs

open Sys2Proof.Machine Sys2Proof.Safety Sys2Proof.Laws

/-- An `arg` other than 15 is a target of the short form (45_control.md R201). -/
theorem decode_jmpS {target : BitVec 4} (h : target ≠ 15) :
    decode [0x3#4 ++ target] = .ok (.jmpS target) [] :=
  decodeOfEncodeGivesTheInstruction (.jmpS target) [] (bne_iff_ne.mpr h)

theorem decode_jmpL (target : Byte) : decode [0x3F, target] = .ok (.jmpL target) [] :=
  decodeOfEncodeGivesTheInstruction (.jmpL target) [] rfl

/-! The bodies of both forms -/

section Bodies
variable {s : State} {r : Robot}

theorem tickBody_jmpS (target : BitVec 4) :
    tickBody (.jmpS target) s r = .completed { r with pc := target.toNat } s.heap := rfl

theorem tickBody_jmpL_escape_missing {target : Byte} (hescape : s.len ≤ r.pc + 1) :
    tickBody (.jmpL target) s r = .raised .outOfBounds s.heap := by
  rw [tickBody_jmpL_eq, if_pos hescape]

theorem tickBody_jmpL_completed {target : Byte} (hescape : r.pc + 1 < s.len) :
    tickBody (.jmpL target) s r = .completed { r with pc := target.toNat } s.heap := by
  rw [tickBody_jmpL_eq, if_neg (Nat.not_le.mpr hescape), Robot.moved]

end Bodies

/-- Settles O35: the short form completes in every state, the long form asks for its escape byte
first, and neither asks anything of the target. -/
theorem jmpGoesToItsTarget : Obligations.JmpGoesToItsTarget := by
  refine ⟨fun _ => decode_jmpS, decode_jmpL, fun s j r hdue =>
    ⟨fun target => ?short, fun target => ⟨fun hescape => ?escapeMissing, fun hescape => ?long⟩⟩⟩
  case short => exact completes_of_keeps_running hdue (tickBody_jmpS target) rfl
  case escapeMissing => exact raises_of_tickBody hdue (tickBody_jmpL_escape_missing hescape)
  case long => exact completes_of_keeps_running hdue (tickBody_jmpL_completed hescape) rfl

end Sys2Proof.Proofs
end

section
/-!
PROOFS. JZ pops and jumps on zero (O36): both encodings, the checks in order, and the shared pop and
jump on either side of its test.
-/

namespace Sys2Proof.Proofs

open Sys2Proof.Machine Sys2Proof.Safety Sys2Proof.Laws

/-- An `arg` other than 15 is a target of the short form (45_control.md R202). -/
theorem decode_jzS {target : BitVec 4} (h : target ≠ 15) :
    decode [0x4#4 ++ target] = .ok (.jzS target) [] :=
  decodeOfEncodeGivesTheInstruction (.jzS target) [] (bne_iff_ne.mpr h)

theorem decode_jzL (target : Byte) : decode [0x4F, target] = .ok (.jzL target) [] :=
  decodeOfEncodeGivesTheInstruction (.jzL target) [] rfl

/-! The pop and the jump, which both forms share -/

section JumpIfZero
variable {s : State} {r : Robot} {target len : Nat}

theorem jumpIfZeroTick_taken (hzero : r.cell (r.sp - 1) = 0) :
    jumpIfZeroTick target len s r =
      .completed { r with sp := r.sp - 1, pc := target } s.heap := by
  rw [jumpIfZeroTick, if_pos hzero, Robot.moved]

theorem jumpIfZeroTick_not_taken (hne : r.cell (r.sp - 1) ≠ 0) :
    jumpIfZeroTick target len s r =
      .completed { r with sp := r.sp - 1, pc := r.pc + len } s.heap := by
  rw [jumpIfZeroTick, if_neg hne, Robot.moved]

/-- Both outcomes of an instruction that has come past its checks to the pop and the jump: each pops
the cell (45_control.md R202). -/
theorem jumpIfZero_outcomes {i : Instr} {j : Nat} (hdue : Due s j r)
    (hbody : tickBody i s r = jumpIfZeroTick target len s r) :
    (r.cell (r.sp - 1) = 0 →
        Completes i s j { r with sp := r.sp - 1, pc := target } s.heap) ∧
      (r.cell (r.sp - 1) ≠ 0 →
        Completes i s j { r with sp := r.sp - 1, pc := r.pc + len } s.heap) := by
  refine ⟨fun hzero => ?taken, fun hne => ?notTaken⟩
  case taken =>
    exact completes_of_keeps_running hdue (hbody.trans (jumpIfZeroTick_taken hzero)) rfl
  case notTaken =>
    exact completes_of_keeps_running hdue (hbody.trans (jumpIfZeroTick_not_taken hne)) rfl

end JumpIfZero

/-! The bodies of both forms, check by check -/

section Bodies
variable {s : State} {r : Robot}

theorem tickBody_jzS_empty {target : BitVec 4} (hsp : r.sp = 0) :
    tickBody (.jzS target) s r = .raised .runtimeStackUnderflow s.heap := if_pos (by omega)

theorem tickBody_jzS_eq_jumpIfZeroTick {target : BitVec 4} (hsp : 0 < r.sp) :
    tickBody (.jzS target) s r = jumpIfZeroTick target.toNat 1 s r := if_neg (by omega)

theorem tickBody_jzL_empty {target : Byte} (hsp : r.sp = 0) :
    tickBody (.jzL target) s r = .raised .runtimeStackUnderflow s.heap := if_pos (by omega)

theorem tickBody_jzL_escape_missing {target : Byte} (hsp : 0 < r.sp)
    (hescape : s.len ≤ r.pc + 1) :
    tickBody (.jzL target) s r = .raised .outOfBounds s.heap := by
  rw [tickBody_jzL_eq, if_neg (by omega), if_pos hescape]

theorem tickBody_jzL_eq_jumpIfZeroTick {target : Byte} (hsp : 0 < r.sp)
    (hescape : r.pc + 1 < s.len) :
    tickBody (.jzL target) s r = jumpIfZeroTick target.toNat 2 s r := by
  rw [tickBody_jzL_eq, if_neg (by omega), if_neg (Nat.not_le.mpr hescape)]

end Bodies

/-- Settles O36: the checks of each form in order, then the pop and jump both forms share, with the
length of the form. -/
theorem jzPopsAndJumpsOnZero : Obligations.JzPopsAndJumpsOnZero := by
  refine ⟨fun _ => decode_jzS, decode_jzL, fun s j r hdue =>
    ⟨fun target => ?short, fun target => ?long⟩⟩
  case short =>
    have hpast (hsp : 0 < r.sp) :=
      jumpIfZero_outcomes hdue (tickBody_jzS_eq_jumpIfZeroTick (target := target) hsp)
    exact ⟨fun hsp => raises_of_tickBody hdue (tickBody_jzS_empty hsp),
      fun hsp => (hpast hsp).left, fun hsp => (hpast hsp).right⟩
  case long =>
    have hpast (hsp : 0 < r.sp) (hescape : r.pc + 1 < s.len) :=
      jumpIfZero_outcomes hdue (tickBody_jzL_eq_jumpIfZeroTick (target := target) hsp hescape)
    exact ⟨fun hsp => raises_of_tickBody hdue (tickBody_jzL_empty hsp),
      fun hsp hescape => raises_of_tickBody hdue (tickBody_jzL_escape_missing hsp hescape),
      fun hsp hescape => (hpast hsp hescape).left, fun hsp hescape => (hpast hsp hescape).right⟩

end Sys2Proof.Proofs
end

section
/-!
PROOFS. The schedule: the end of a pass (O9, O53), where no robot is due (O10, O12), the order of the
ticks in a pass (O13), and halted robots (O46).
-/

namespace Sys2Proof.Proofs

open Sys2Proof.Machine Sys2Proof.Safety Sys2Proof.Laws

/-! Where no robot is due -/

/-- The scheduler's choice in the words of the statements: none where every robot from `next` on is
halted (60_exceptions.md R242). -/
theorem current_eq_none_of_halted {s : State}
    (h : ∀ k r, s.next ≤ k → s.robots[k]? = some r → r.running = false) : s.current = none := by
  refine current_eq_none.mpr fun k hk hrun => ?_
  obtain ⟨r, hr, hrunning⟩ := Option.map_eq_some_iff.mp hrun
  exact absurd hrunning (by simp [h k r hk hr])

theorem exec_of_none {s : State} (h : s.current = none) (i : Instr) :
    exec i s = .fault .noRobot := by
  rw [exec_eq_runTick, State.runTick, h]

/-- Settles O10. -/
theorem stepOutsideARunChangesNothing : Obligations.StepOutsideARunChangesNothing :=
  fun _ => step_of_not_running

/-- Settles O12: an instruction is a body run for the robot that is due, and there is none. -/
theorem noTickWithoutARunningRobot : Obligations.NoTickWithoutARunningRobot :=
  fun i _ h => exec_of_none (current_eq_none_of_halted h) i

/-! The end of a pass -/

/-- The notice of a halted robot, in the words of the statements (60_exceptions.md R251). -/
theorem haltNotice_eq (s : State) (j : Nat) :
    s.haltNotice j =
      { robot := j
        lastValue := s.robots[j]?.bind fun r =>
          if 0 < r.sp then some (r.cell (r.sp - 1)) else none
        ticksAtReport := s.ticks } := by
  cases h : s.robots[j]? <;> simp [State.haltNotice, h]

/-- The end of a pass reports the robots that halted in it, whether the run goes on or ends. -/
theorem endPass_notices (s : State) :
    s.endPass.notices = s.notices ++ s.haltedInPass.map s.haltNotice := by
  rcases endPass_cases s with ⟨-, hend⟩ | ⟨-, hend⟩ <;> rw [hend]

theorem endPass_robots (s : State) : s.endPass.robots = s.robots := by
  rcases endPass_cases s with ⟨-, hend⟩ | ⟨-, hend⟩ <;> rw [hend]

/-- With a robot running, the end of a pass begins the next one (60_exceptions.md R242). -/
theorem endPass_of_running {s : State} (h : ∃ r ∈ s.robots, r.running = true) :
    s.endPass = { s with notices := s.endPass.notices, haltedInPass := [], next := 0 } := by
  rcases endPass_cases s with ⟨-, hend⟩ | ⟨hhalted, -⟩
  · rw [hend]
  · obtain ⟨r, hr, hrun⟩ := h
    exact absurd hrun (by simp [hhalted r hr])

/-- With every robot halted, the end of a pass ends the run (60_exceptions.md R244). -/
theorem endPass_of_halted {s : State} (h : ∀ r ∈ s.robots, r.running = false) :
    s.endPass = { s with notices := s.endPass.notices, haltedInPass := [], sched := .done } := by
  rcases endPass_cases s with ⟨⟨r, hr, hrun⟩, -⟩ | ⟨-, hend⟩
  · exact absurd hrun (by simp [h r hr])
  · rw [hend]

/-- Settles O9: with no robot due the step ends the pass. -/
theorem endOfPassReportsHalts : Obligations.EndOfPassReportsHalts := by
  intro s hs hhalted
  refine ⟨s.endPass, step_of_none hs (current_eq_none_of_halted hhalted), ?_, endPass_of_running,
    endPass_of_halted⟩
  rw [endPass_notices, funext (haltNotice_eq s)]

theorem load_eq_loaded_of_running {s : State} {image : List Byte}
    (h : (s.load image).sched = .running) : s.load image = s.loaded image := by
  rw [State.load, (load_sched_running_iff s image).mp h]

/-- An image whose header counts no robots makes none (70_reset_and_hazards.md R277). -/
theorem loaded_robots_eq_nil (s : State) {image : List Byte} (h : byteAt image 10 = 0) :
    (s.loaded image).robots = [] := by
  have hcount : imageRobotCount image = 0 := h
  simp [State.loaded, imageEntries, hcount]

/-- Settles O53: an empty table has no robot due, so the first step ends the pass and the run, and
the load left no tick, no notice and no halt to report. -/
theorem anEmptyRunIsDoneAtOnce : Obligations.AnEmptyRunIsDoneAtOnce := by
  intro s image hrunning hcount
  rw [load_eq_loaded_of_running hrunning]
  have hrobots := loaded_robots_eq_nil s hcount
  have hcurrent : (s.loaded image).current = none :=
    current_eq_none_of_halted fun k r _ hk => by simp [hrobots] at hk
  have hend := endPass_of_halted (s := s.loaded image) (by simp [hrobots])
  refine ⟨(s.loaded image).endPass, step_of_none rfl hcurrent, ?_, ?_, endPass_notices _⟩
  · rw [hend]
  · rw [hend]
    rfl

/-! The order of a pass -/

/-- Settles O13: the tick moves the schedule to the index after `j` (O14) and leaves every other robot
(O43), so the robot due next is the least running one above `j`. -/
theorem robotsTickInAscendingOrder : Obligations.RobotsTickInAscendingOrder := by
  intro s t j k r q hs hdue hstep ht hdue'
  obtain ⟨-, -, hle, hleast⟩ := hdue'
  have hnext : t.next = j + 1 := by
    rcases ticksCountCompletedInstructions s t j r hs hdue hstep with
      ⟨-, -, hnext, -⟩ | ⟨hfaulted, -⟩
    · exact hnext
    · exact absurd (ht.symm.trans hfaulted) (by decide)
  obtain ⟨hothers, -⟩ := aTickChangesOnlyItsOwnRobot s t j r hs hdue hstep
  refine ⟨by omega, fun m p hjm hmk hm => ?_⟩
  have hnot := hleast m hmk (by omega)
  rw [hothers m hjm.ne', hm] at hnot
  simpa using hnot

/-! Halted robots -/

/-- Settles O46, by the cases of a step: only completing a tick writes the table, and it writes it at
the robot that was due, which is running. -/
theorem haltedRobotsStayAsTheyAre : Obligations.HaltedRobotsStayAsTheyAre := by
  intro s t k r hk hhalted hstep
  rcases step_cases hstep with ⟨-, rfl⟩ | ⟨-, -, rfl⟩ |
    ⟨-, j, q, hdue, ⟨-, rfl⟩ | ⟨-, i, -, ⟨r', heap, -, rfl⟩ | ⟨kind, heap, -, rfl⟩⟩⟩
  · exact hk
  · rwa [endPass_robots]
  · exact hk
  · obtain ⟨hj, hrun, -⟩ := hdue
    have hne : j ≠ k := by
      rintro rfl
      obtain rfl := Option.some.inj (hj.symm.trans hk)
      exact absurd (hrun.symm.trans hhalted) (by decide)
    rwa [completeTick_robots, List.getElem?_set_ne hne]
  · exact hk

end Sys2Proof.Proofs
end

section
/-!
PROOFS. Bounded runs compose (O15).
-/

namespace Sys2Proof.Proofs

open Sys2Proof.Machine Sys2Proof.Safety Sys2Proof.Laws

/-- A run of an ended block stays where it is, whatever its bound (60_exceptions.md R260). -/
theorem hostRun_of_not_running {s : State} (hs : s.sched ≠ .running) (n : Nat) :
    hostRun n s = .next s := by
  cases n with
  | zero => rfl
  | succ n => rw [hostRun, if_neg hs]

/-- A run of a running block is its first step and a run of one step less. -/
theorem hostRun_succ_of_step {s t : State} (hs : s.sched = .running) (hstep : step s = .next t)
    (n : Nat) : hostRun (n + 1) s = hostRun n t := by
  rw [hostRun, if_pos hs, hstep]

/-- Settles O15, by induction on the first bound: a running block makes the same first step in both
runs, and an ended one stays where it is in all of them. -/
theorem boundedRunsCompose : Obligations.BoundedRunsCompose := by
  intro m n s u
  induction m generalizing s with
  | zero => simp [hostRun]
  | succ m ih =>
    by_cases hs : s.sched = .running
    · obtain ⟨t, hstep⟩ := everyStepAnswersANextState s
      rw [Nat.succ_add, hostRun_succ_of_step hs hstep, hostRun_succ_of_step hs hstep]
      exact ih t
    · simp [hostRun_of_not_running hs]

end Sys2Proof.Proofs
end

section
/-!
PROOFS. The kinds of fault: those a tick can raise, and the record a step keeps (O40); their codes
(O54); and NotRunning, which only a tick of a halted robot raises (O55).
-/

namespace Sys2Proof.Proofs

open Sys2Proof.Machine Sys2Proof.Safety Sys2Proof.Laws

/-! The kinds a tick can raise -/

/-- A kind that `RecordRight` allows in the record of a faulted run (60_exceptions.md R221 to R223). -/
abbrev TickKind (k : FaultKind) : Prop :=
  k = .badInput ∨ k = .runtimeStackUnderflow ∨ k = .runtimeDivisionByZero ∨ k = .outOfBounds

theorem tickKind_badInput : TickKind .badInput := .inl rfl

theorem tickKind_underflow : TickKind .runtimeStackUnderflow := .inr (.inl rfl)

theorem tickKind_divisionByZero : TickKind .runtimeDivisionByZero := .inr (.inr (.inl rfl))

theorem tickKind_outOfBounds : TickKind .outOfBounds := .inr (.inr (.inr rfl))

/-- Where the result of a tick is a fault, it is of a kind a tick can raise. -/
def RaisesTickKind : TickResult → Prop
  | .completed _ _ => True
  | .raised k _ => TickKind k

section Rules
variable {s : State} {r : Robot}

@[simp] theorem raisesTickKind_raised {k : FaultKind} {heap : Memory} :
    RaisesTickKind (.raised k heap) ↔ TickKind k := Iff.rfl

theorem raisesTickKind_completed {heap : Memory} : RaisesTickKind (.completed r heap) := trivial

/-- A check that faults before the rest of a body. -/
theorem raisesTickKind_check {c : Prop} [Decidable c] {k : FaultKind} {heap : Memory}
    {rest : TickResult} (hk : TickKind k) (hrest : RaisesTickKind rest) :
    RaisesTickKind (if c then .raised k heap else rest) := by
  split
  · exact hk
  · exact hrest

theorem binaryTick_raisesTickKind (f : Cell → Cell → Cell) : RaisesTickKind (binaryTick f s r) :=
  raisesTickKind_check tickKind_underflow raisesTickKind_completed

theorem divideTick_raisesTickKind (f : Cell → Cell → Cell) : RaisesTickKind (divideTick f s r) :=
  raisesTickKind_check tickKind_underflow
    (raisesTickKind_check tickKind_divisionByZero (binaryTick_raisesTickKind f))

theorem pushTick_raisesTickKind (v : Cell) (n : Nat) : RaisesTickKind (pushTick v n s r) :=
  raisesTickKind_check tickKind_outOfBounds raisesTickKind_completed

/-- No instruction raises InvalidArgument, NotSupported or NotRunning (60_exceptions.md R222,
R223). -/
theorem tickBody_raisesTickKind (i : Instr) : RaisesTickKind (tickBody i s r) := by
  cases i with
  | halt | jmpS => exact raisesTickKind_completed
  | reservedStack => exact tickKind_badInput
  | sub | add | mul | and | or => exact binaryTick_raisesTickKind _
  | div | mod => exact divideTick_raisesTickKind _
  | not | pop | swap | jzS =>
    exact raisesTickKind_check tickKind_underflow raisesTickKind_completed
  | dup => exact raisesTickKind_check tickKind_underflow (pushTick_raisesTickKind _ _)
  | read =>
    refine raisesTickKind_check tickKind_underflow ?_
    split
    · exact tickKind_outOfBounds
    · exact raisesTickKind_completed
  | write =>
    refine raisesTickKind_check tickKind_underflow ?_
    split
    · exact raisesTickKind_completed
    · exact tickKind_outOfBounds
  | jmpL =>
    rw [tickBody_jmpL_eq]
    exact raisesTickKind_check tickKind_outOfBounds raisesTickKind_completed
  | jzL =>
    rw [tickBody_jzL_eq]
    exact raisesTickKind_check tickKind_underflow
      (raisesTickKind_check tickKind_outOfBounds raisesTickKind_completed)
  | reservedOp =>
    simp only [tickBody]
    split
    · exact tickKind_badInput
    · exact raisesTickKind_completed
  | push =>
    rw [tickBody_push_eq]
    exact raisesTickKind_check tickKind_outOfBounds
      (raisesTickKind_check tickKind_outOfBounds (pushTick_raisesTickKind _ _))

end Rules

/-! The fault record -/

/-- Taking a fault of the robot that is due writes a right record: the robot keeps its registers
(60_exceptions.md R227, R229). -/
theorem recordRight_takeFault {s : State} {j : Nat} {r : Robot} (hdue : Due s j r) {k : FaultKind}
    (hk : TickKind k) (heap : Memory) : RecordRight (s.takeFault j r k heap) :=
  have ⟨hj, _⟩ := hdue
  fun _ => ⟨_, j, r, rfl, rfl, hj, rfl, rfl, hk⟩

/-- Settles O40, by the cases of a step: one that does not fault ends in no FAULTED state, unless it
began in it and did nothing. -/
theorem stepKeepsTheFaultRecordRight : Obligations.StepKeepsTheFaultRecordRight := by
  intro s t hright hstep
  rcases step_cases hstep with ⟨-, rfl⟩ | ⟨hs, -, rfl⟩ |
    ⟨hs, j, r, hdue, ⟨-, rfl⟩ | ⟨-, i, -, ⟨r', heap, -, rfl⟩ | ⟨k, heap, hbody, rfl⟩⟩⟩
  · exact hright
  · exact fun hfaulted => absurd hfaulted (endPass_not_faulted hs)
  · exact recordRight_takeFault hdue tickKind_outOfBounds s.heap
  · exact fun hfaulted => absurd (hs.symm.trans hfaulted) (by decide)
  · have hk : RaisesTickKind (tickBody i s r) := tickBody_raisesTickKind i
    rw [hbody, raisesTickKind_raised] at hk
    exact recordRight_takeFault hdue hk heap

/-! The codes -/

/-- No kind has the code of no fault (60_exceptions.md R221). -/
theorem code_ne_zero (k : FaultKind) : k.code ≠ 0 := by
  cases k <;> decide

theorem faultCode_eq_zero_iff (s : State) : s.faultCode = 0 ↔ s.fault = none := by
  cases hfault : s.fault with
  | none => simp [State.faultCode, hfault]
  | some f => simp [State.faultCode, hfault, code_ne_zero]

/-- Settles O54. -/
theorem faultKindsHaveTheirCodes : Obligations.FaultKindsHaveTheirCodes :=
  ⟨rfl, rfl, rfl, rfl, rfl, rfl, rfl, faultCode_eq_zero_iff⟩

/-! NotRunning -/

/-- A tick of a running robot answers a next state, wherever the schedule stands. -/
theorem tick_answers_next {s : State} {j : Nat} {r : Robot} (hj : s.robots[j]? = some r)
    (hrun : r.running = true) : ∃ t, tick j s = .next t := by
  rcases tick_of_running hj hrun with ⟨-, htick⟩ | ⟨-, htick⟩ <;> rw [htick]
  · exact ⟨_, rfl⟩
  · rw [execFor_of_running hj hrun]
    split <;> exact ⟨_, rfl⟩

/-- A tick of an index outside the table (log entry 5). -/
theorem tick_of_none {s : State} {j : Nat} (hj : s.robots[j]? = none) :
    tick j s = .fault .noRobot := by
  rw [tick, hj]

theorem tick_eq_notRunning_iff (s : State) (j : Nat) :
    tick j s = .fault .notRunning ↔ ∃ r, s.robots[j]? = some r ∧ r.running = false := by
  constructor
  · intro htick
    cases hj : s.robots[j]? with
    | none => simp [tick_of_none hj] at htick
    | some r =>
      refine ⟨r, rfl, Bool.eq_false_iff.mpr fun hrun => ?_⟩
      obtain ⟨t, hnext⟩ := tick_answers_next hj hrun
      simp [hnext] at htick
  · rintro ⟨r, hj, hhalted⟩
    exact tick_of_halted hj hhalted

/-- An instruction answers a next state where a robot is due, and the model's own fault where none
is. -/
theorem exec_ne_notRunning (i : Instr) (s : State) : exec i s ≠ .fault .notRunning := by
  cases hcurrent : s.current with
  | none => simp [exec_of_none hcurrent]
  | some due =>
    obtain ⟨t, hnext⟩ := exec_answers_next (current_eq_some.mp hcurrent) i
    simp [hnext]

/-- Settles O55: a tick is decided by its robot's place in the table and its running flag; an
instruction runs for a robot that is due, so a running one; a step answers a next state (O11). -/
theorem onlyATickOfAHaltedRobotRaisesNotRunning :
    Obligations.OnlyATickOfAHaltedRobotRaisesNotRunning := by
  refine ⟨tick_eq_notRunning_iff, exec_ne_notRunning, fun s => ?_, rfl⟩
  obtain ⟨t, hnext⟩ := everyStepAnswersANextState s
  simp [hnext]

end Sys2Proof.Proofs
end

section
/-!
PROOFS. Reset and load: the checks in their order (O49), what a load leaves (O51, O52), power-up
(O37), and that a load keeps nothing of the state before it (O50).
-/

namespace Sys2Proof.Proofs

open Sys2Proof.Machine Sys2Proof.Safety Sys2Proof.Laws

/-! The initializer records of an image -/

/-- Record `n` of an image, its address and its value (70_reset_and_hazards.md R275). -/
def recordOf (image : List Byte) (n : Nat) : Host.Cell := (recordAddr image n, recordValue image n)

/-- How many records the bytes from `data_seg_offset` on hold (70_reset_and_hazards.md R275). -/
def recordCount (image : List Byte) : Nat := (image.length - byteAt image 9) / 3

/-- The records are counted in the bytes from `data_seg_offset` on. -/
theorem recordIn_drop (image : List Byte) (n : Nat) :
    recordIn (image.drop (byteAt image 9)) n = recordOf image n := by
  simp [recordIn, recordOf, recordAddr, recordAt, byteAt, Nat.add_assoc]

/-- Where no record is cut short, those that begin in the image are the ones that it holds. -/
theorem recordAt_lt_length_iff {image : List Byte} (h : 3 ∣ image.length - byteAt image 9)
    {n : Nat} :
    recordAt image n < image.length ↔ n < recordCount image := by
  rw [recordCount, recordAt]
  omega

/-- An image's records parse exactly when they are well formed, and in file order. -/
theorem imageRecords_eq_some_iff {image : List Byte} {recs : Memory} :
    imageRecords image = some recs ↔
      RecordsFit image ∧ recs = (List.range (recordCount image)).map (recordOf image) := by
  have hparse := parseRecords_eq_some (memSize := imageMemSize image)
    (l := image.drop (byteAt image 9)) (recs := recs)
  simp only [List.length_drop, funext (recordIn_drop image), recordIn_drop, Nat.lt_sub_iff_add_lt']
    at hparse
  exact hparse.trans and_assoc.symm

theorem imageRecords_eq_none_iff (image : List Byte) :
    imageRecords image = none ↔ ¬RecordsFit image := by
  rw [Option.eq_none_iff_forall_ne_some]
  simp [imageRecords_eq_some_iff]

/-! The checks in their order -/

/-- The load checks, with the numbers and the header fields that the statements use
(70_reset_and_hazards.md R271). -/
theorem loadCheck_eq (p : Config.Params) (image : List Byte) :
    loadCheck p image =
      if 1024 < image.length then some .badInput
      else if image.length < 12 then some .badInput
      else if image.take 4 ≠ p.magic.toList ∨ (image.drop 4).take 2 ≠ p.version.toList then
        some .badInput
      else if 16 < byteAt image 10 then some .notSupported
      else if 4096 < headerMemSize image then some .notSupported
      else if image.length < 11 + byteAt image 10 then some .badInput
      else if imageRecords image = none then some .badInput
      else none := rfl

theorem loadFails_of_loadCheck {s : State} {image : List Byte} {k : FaultKind}
    (h : loadCheck s.params image = some k) : LoadFails s image k := by
  have hload : s.load image = s.loadFailed k := by rw [State.load, h]
  rw [LoadFails, hload]
  exact ⟨rfl, rfl, rfl, rfl, rfl⟩

/-- One check: an image that fails it has its kind of load error, and one that passes it is left to
the checks that follow. -/
theorem loadFails_check {s : State} {image : List Byte} {c : Prop} [Decidable c] {k : FaultKind}
    {rest : Option FaultKind} {passes : Prop}
    (h : loadCheck s.params image = if c then some k else rest)
    (hrest : loadCheck s.params image = rest → passes) :
    if c then LoadFails s image k else passes := by
  split
  case isTrue hc => exact loadFails_of_loadCheck (h.trans (if_pos hc))
  case isFalse hc => exact hrest (h.trans (if_neg hc))

/-- Settles O49: the first six checks one after the other, and the seventh, which an image passes
exactly when its records are well formed. -/
theorem loadChecksRunInOrder : Obligations.LoadChecksRunInOrder := by
  intro s image
  refine loadFails_check (loadCheck_eq s.params image) fun hshort => loadFails_check hshort
    fun htags => loadFails_check htags fun hrobots => loadFails_check hrobots
    fun hheap => loadFails_check hheap fun hentries => loadFails_check hentries fun hrecords => ?_
  have hnone := imageRecords_eq_none_iff image
  refine ⟨fun hunfit => loadFails_of_loadCheck ?_, fun hfit => ?_⟩
  · rw [hrecords, if_pos (hnone.mpr hunfit)]
  · rw [load_sched_running_iff, hrecords, if_neg fun h => hnone.mp h hfit]

/-! The entry points and the robots of a load -/

theorem imageEntries_length (image : List Byte) : (imageEntries image).length = byteAt image 10 :=
  (List.length_map _).trans List.length_range

/-- The entry points stand in the image after the header (10_state.md R27). -/
theorem imageEntries_getElem? {image : List Byte} {i : Nat} (hi : i < byteAt image 10) :
    (imageEntries image)[i]? = some (image.getD (11 + i) 0) := by
  have hrange : (List.range (imageRobotCount image))[i]? = some i := List.getElem?_range hi
  simp only [imageEntries, List.getElem?_map, hrange]
  rfl

/-- A load makes each robot from the entry point with its index (70_reset_and_hazards.md R277). -/
theorem eq_newRobot_of_loaded {s : State} {image : List Byte} {i : Nat} {r : Robot}
    (hr : (s.loaded image).robots[i]? = some r) :
    r = newRobot (image.getD 8 0) (image.getD (11 + i) 0) := by
  obtain ⟨entry, hentry, rfl⟩ : ∃ entry, (imageEntries image)[i]? = some entry ∧
      newRobot (image.getD 8 0) entry = r := by
    simpa [State.loaded, imageByte] using hr
  obtain ⟨hi, -⟩ := List.getElem?_eq_some_iff.mp hentry
  rw [imageEntries_length] at hi
  rw [imageEntries_getElem? hi] at hentry
  rw [Option.some.inj hentry]

/-- Settles O51: the code store reads as the image it is filled from, the robots are made from the
entry points, and the other elements are as `State.loaded` sets them. -/
theorem loadSetsAllButHeapAndStackCells : Obligations.LoadSetsAllButHeapAndStackCells := by
  intro s image hrunning
  rw [load_eq_loaded_of_running hrunning]
  refine ⟨memory_read_ofBytes image, rfl, rfl, rfl, rfl, rfl, imageEntries_length image,
    fun _ => imageEntries_getElem?, rfl, ?_, fun i r hr => ?_, rfl, rfl, rfl, rfl, rfl⟩
  · rw [← imageEntries_length]
    exact List.length_map _
  · rw [eq_newRobot_of_loaded hr]
    exact ⟨rfl, rfl, rfl, rfl⟩

/-! The heap of a load -/

section WriteAll
variable {α : Type} [DecidableEq α] {d : α} {m : List (Nat × α)}

/-- An address that no pair of a list has keeps what the store held. -/
theorem read_writeAll_of_forall_ne {l : List (Nat × α)} {a : Nat} (h : ∀ c ∈ l, c.1 ≠ a) :
    Store.read d (Store.writeAll d m l) a = Store.read d m a := by
  have hnone : l.reverse.find? (fun c => c.1 == a) = none := by simpa using h
  rw [store_read_writeAll, hnone]

/-- One pair more is written last. -/
theorem writeAll_map_range_succ (f : Nat → Nat × α) (k : Nat) :
    Store.writeAll d m ((List.range (k + 1)).map f) =
      Store.write d (Store.writeAll d m ((List.range k).map f)) (f k).1 (f k).2 := by
  simp [Store.writeAll, List.range_succ]

/-- The last pair with an address gives its value. -/
theorem read_writeAll_map_range {f : Nat → Nat × α} {k n : Nat} (hn : n < k)
    (hlast : ∀ i, n < i → i < k → (f i).1 ≠ (f n).1) :
    Store.read d (Store.writeAll d m ((List.range k).map f)) (f n).1 = (f n).2 := by
  induction k with
  | zero => omega
  | succ k ih =>
    rw [writeAll_map_range_succ, store_read_write]
    rcases Nat.lt_succ_iff_lt_or_eq.mp hn with hlt | rfl
    · rw [if_neg (hlast k hlt k.lt_succ_self)]
      exact ih hlt fun i hni hik => hlast i hni (by omega)
    · rw [if_pos rfl]

end WriteAll

/-- Settles O52: the heap is the records, written in file order over a cleared heap. -/
theorem heapHoldsTheLastRecords : Obligations.HeapHoldsTheLastRecords := by
  intro s image hrunning
  have hcheck := (load_sched_running_iff s image).mp hrunning
  obtain ⟨-, -, -, -, -, -, hparse⟩ := loadCheck_eq_none_iff.mp hcheck
  obtain ⟨recs, hrecs⟩ := Option.ne_none_iff_exists'.mp hparse
  obtain ⟨⟨hwhole, -⟩, hlist⟩ := imageRecords_eq_some_iff.mp hrecs
  rw [load_eq_loaded_of_running hrunning, loaded_heap s hrecs, hlist]
  simp only [recordAt_lt_length_iff hwhole]
  refine ⟨fun n hn hlast => read_writeAll_map_range (f := recordOf image) hn hlast,
    fun a hnone => ?_⟩
  refine read_writeAll_of_forall_ne (m := []) fun c hc => ?_
  obtain ⟨n, hn, rfl⟩ := List.mem_map.mp hc
  exact hnone n (List.mem_range.mp hn)

/-! Power-up, and the state before a load -/

/-- Power-up meets the invariant: no image is loaded, every store and table is empty, and the
default parameters are valid (70_reset_and_hazards.md R270, log entry 2). -/
theorem reset_inv : MachineInv State.reset where
  params_valid := by decide
  stackCap_admits := fun h => absurd rfl h
  code_canonical := reset_stores_wf.1
  code_bounded := fun _ hc => absurd hc List.not_mem_nil
  heap_canonical := reset_stores_wf.2
  heap_bounded := fun _ hc => absurd hc List.not_mem_nil
  len_le := Nat.zero_le _
  memSize_le := Nat.zero_le _
  robotCount_le := Nat.zero_le _
  entry_length := rfl
  robots_length := rfl
  robots_inv := fun _ hr => absurd hr List.not_mem_nil
  next_le := Nat.le_refl _
  halted_rising := List.Pairwise.nil
  halted_halted := fun _ hk => absurd hk List.not_mem_nil
  fault_iff := by decide
  done_halted := fun h => by cases h

/-- Settles O37. -/
theorem resetMeetsTheInvariant : Obligations.ResetMeetsTheInvariant := ⟨rfl, reset_inv⟩

section SameBuild
variable {s u : State} (hparams : s.params = u.params) (hloads : s.loads = u.loads)
include hparams hloads

/-- A load that succeeds keeps the parameters and counts one load more, and keeps nothing else. -/
theorem loaded_eq_of_sameBuild (image : List Byte) : s.loaded image = u.loaded image := by
  rw [State.loaded, State.loaded, hparams, hloads]

/-- A failed load leaves the free values of its number (log entry 8). -/
theorem loadFailed_eq_of_sameBuild (k : FaultKind) : s.loadFailed k = u.loadFailed k := by
  rw [State.loadFailed, State.loadFailed, hparams, hloads]

end SameBuild

/-- Settles O50: the same checks decide both loads, and either outcome keeps only what is the
same. -/
theorem loadDiscardsThePreviousState : Obligations.LoadDiscardsThePreviousState := by
  intro s u image hparams hloads
  rw [State.load, State.load, hparams]
  split
  · exact loadFailed_eq_of_sameBuild hparams hloads _
  · exact loaded_eq_of_sameBuild hparams hloads image

end Sys2Proof.Proofs
end
